-- ==== Sys2Proof/Word.lean ====
section
/-! DEFINITION. The word types of ECORE: the content of a 128-byte register slot, a 32-bit window word, a byte. -/

namespace Sys2Proof

/-- The content of one register slot: 128 bytes, 1024 bits (rules R7, R62). A W-bit register uses the low W bits of
its slot; the bits from W up are never written and stay 0 (the invariant of Safety.lean). -/
abbrev Word := BitVec 1024

/-- The 32-bit number that one window access carries (rules R63, R66). -/
abbrev Word32 := BitVec 32

/-- A byte of a byte-addressed host bus (rule R63). -/
abbrev Byte := BitVec 8

end Sys2Proof
end

