-- ==== Sys2Proof/Config.lean ====
section
/-! DEFINITION. The implementation parameters of rule R7: W is open, all others are fixed. The open latency is the
opaque Sys2Proof.Config.latency, declared beside State because it may depend on the whole state. -/

namespace Sys2Proof

/-- The open parameter of an ECORE, fixed for one machine (rule R7): `nw` is NW = W / 32. -/
structure Config where
  nw : Nat
deriving DecidableEq, Repr

/-- W, the width in bits of every field, curve and coordinate register (rule R7). -/
abbrev Config.W (c : Config) : Nat := 32 * c.nw

/-- "a multiple of 32 with 32 <= W <= 1024" (rule R7). -/
abbrev Config.legal (c : Config) : Prop := 1 ≤ c.nw ∧ c.nw ≤ 32

/-- The default W = 256 (rule R7). -/
def Config.default : Config := { nw := 8 }

/-- NF, the number of field registers (rule R7). -/
abbrev NF : Nat := 8

/-- NP, the number of point registers (rule R7). -/
abbrev NP : Nat := 4

end Sys2Proof
end

