-- ==== Sys2Proof/Syntax.lean ====
section
/-! DEFINITION. The ten commands of rule R93 as one inductive, and the raw fields of a command word (rule R91). -/

namespace Sys2Proof

/-- A field register index, 0 to 7 (rules R21, R92). -/
abbrev FReg := Fin 8

/-- A point register index, 0 to 3; `pt[0]` is G (rules R22, R23, R92). -/
abbrev PReg := Fin 4

/-- One constructor per row of the opcode table (rule R93), operands in the roles of rule R94. -/
inductive Instr where
  /-- NORM rd, rs1 (R123): v is plus or minus `f[rs1]`. -/
  | norm (neg : Bool) (rd rs1 : FReg)
  /-- NORMW rd, rs2:rs1 (R124): `rs1` the low W bits of the magnitude, `rs2` the high W bits. -/
  | normw (neg : Bool) (rd rs1 rs2 : FReg)
  /-- MADD rd, rs1, rs2 (R125). -/
  | madd (rd rs1 rs2 : FReg)
  /-- MSUB rd, rs1, rs2 (R126). -/
  | msub (rd rs1 rs2 : FReg)
  /-- MMUL rd, rs1, rs2 (R127). -/
  | mmul (rd rs1 rs2 : FReg)
  /-- MINV rd, rs1 (R129). -/
  | minv (rd rs1 : FReg)
  /-- MPOW rd, rs1, rs2 (R131): base then exponent. -/
  | mpow (rd rs1 rs2 : FReg)
  /-- PADD rd, rs1, rs2 (R161). -/
  | padd (rd rs1 rs2 : PReg)
  /-- SMUL rd, rs1, rs2 (R181): point `rs1`, scalar plus or minus `f[rs2]`. -/
  | smul (neg : Bool) (rd rs1 : PReg) (rs2 : FReg)
  /-- PDEC rd, tag, rs1, rs2 (R201): x in `f[rs1]`, y in `f[rs2]` read only for tag 0x04. -/
  | pdec (tag : BitVec 8) (rd : PReg) (rs1 rs2 : FReg)
deriving DecidableEq, Repr

/-- The seven fields of a command word (rule R91), before any check. -/
structure Fields where
  opcode : BitVec 8
  rd : BitVec 4
  rs1 : BitVec 4
  rs2 : BitVec 4
  imm8 : BitVec 8
  neg : Bool
  reserved : BitVec 3
deriving DecidableEq, Repr

end Sys2Proof
end

