-- ==== Sys2Proof/WellFormed.lean ====
section
/-! DEFINITION. When a command word's raw fields fit their format (rule R92, conditions 1 to 4 of rule R97), and the
one legality condition that depends on the state (condition 5 of rule R97). A term of Instr carries indices that are in
range by their type, so conditions 1 to 4 are checks of the raw fields. -/

namespace Sys2Proof

/-- The five formats of rule R92. -/
inductive Format where
  | fr1 | fr2 | pp | pk | pd
deriving DecidableEq, Repr

/-- What a format says of one index field: a field register, a point register, or "must be 0" (rule R92). -/
inductive IndexRole where
  | field | point | zero
deriving DecidableEq, Repr

/-- "A field-register index must be 0 to 7 ...; a point-register index must be 0 to 3" (rule R92). -/
def IndexRole.admits : IndexRole → BitVec 4 → Bool
  | .field, i => decide (i.toNat < 8)
  | .point, i => decide (i.toNat < 4)
  | .zero, i => decide (i.toNat = 0)

/-- The roles of `rd`, `rs1` and `rs2` in each format (the table of rule R92). -/
def Format.roles : Format → IndexRole × IndexRole × IndexRole
  | .fr1 => (.field, .field, .zero)
  | .fr2 => (.field, .field, .field)
  | .pp => (.point, .point, .point)
  | .pk => (.point, .point, .field)
  | .pd => (.point, .field, .field)

/-- The format of an opcode and whether its `neg` bit is free (rules R92, R93, R96); none for a reserved opcode. -/
def formatOf (opcode : BitVec 8) : Option (Format × Bool) :=
  match opcode.toNat with
  | 0x01 => some (.fr1, true)
  | 0x02 => some (.fr2, true)
  | 0x03 => some (.fr2, false)
  | 0x04 => some (.fr2, false)
  | 0x05 => some (.fr2, false)
  | 0x06 => some (.fr1, false)
  | 0x07 => some (.fr2, false)
  | 0x10 => some (.pp, false)
  | 0x11 => some (.pk, true)
  | 0x12 => some (.pd, false)
  | _ => none

/-- The raw fields are those of one of the ten commands: none of conditions 1 to 4 of rule R97 holds. -/
def Fields.wellFormed (x : Fields) : Bool :=
  match formatOf x.opcode with
  | none => false
  | some (fmt, negFree) =>
    decide (x.reserved = 0) &&
    fmt.roles.1.admits x.rd && fmt.roles.2.1.admits x.rs1 && fmt.roles.2.2.admits x.rs2 &&
    (decide (fmt = .pd) || decide (x.imm8 = 0)) && (negFree || !x.neg)

/-- Condition 5 of rule R97: a point command whose destination is `pt[0]` is illegal while `CTRL.LOCK = 1`. -/
def Instr.wellFormed (lock : Bool) : Instr → Bool
  | .padd rd _ _ => !(lock && decide (rd = 0))
  | .smul _ rd _ _ => !(lock && decide (rd = 0))
  | .pdec _ rd _ _ => !(lock && decide (rd = 0))
  | .norm _ _ _ => true
  | .normw _ _ _ _ => true
  | .madd _ _ _ => true
  | .msub _ _ _ => true
  | .mmul _ _ _ => true
  | .minv _ _ => true
  | .mpow _ _ _ => true

end Sys2Proof
end

