-- ==== Sys2Proof/Decode.lean ====
section
/-! DEFINITION. Decoding a command word, total on any 32 bits and rejecting by name (rules R91 to R101), the encoder
written from the same rules, and the opcode map of rule R93 as a list of rows. -/

namespace Sys2Proof

/-- Why a word is no command: conditions 1 to 4 of rule R97, and a byte string too short to hold a word. All of them
complete with the one error IllegalCommand (rule R255); the names are the model's. -/
inductive IllegalReason where
  | reservedOpcode
  | reservedBits
  | indexOutOfRange
  | mustBeZero
  | truncated
deriving DecidableEq, Repr

/-- Cut a command word into its fields (rule R91). -/
def Fields.ofWord (c : Word32) : Fields where
  opcode := c.extractLsb' 0 8
  rd := c.extractLsb' 8 4
  rs1 := c.extractLsb' 12 4
  rs2 := c.extractLsb' 16 4
  imm8 := c.extractLsb' 20 8
  neg := c.getLsbD 28
  reserved := c.extractLsb' 29 3

/-- The command word with the given fields (rule R91, most significant field first). -/
def Fields.toWord (x : Fields) : Word32 :=
  x.reserved ++ BitVec.ofBool x.neg ++ x.imm8 ++ x.rs2 ++ x.rs1 ++ x.rd ++ x.opcode

/-- A field-register index (rule R92). -/
def fieldIndex (i : BitVec 4) : Except IllegalReason FReg :=
  if h : i.toNat < 8 then .ok ⟨i.toNat, h⟩ else .error .indexOutOfRange

/-- A point-register index (rule R92). -/
def pointIndex (i : BitVec 4) : Except IllegalReason PReg :=
  if h : i.toNat < 4 then .ok ⟨i.toNat, h⟩ else .error .indexOutOfRange

/-- A field that must be zero (rule R97, condition 4). -/
def mustBeZero (isZero : Bool) : Except IllegalReason Unit :=
  if isZero then .ok () else .error .mustBeZero

/-- The three field-register indices of a command of format FR2 whose `imm8` is 0, and `neg` too unless it is free
(rule R92). -/
def decodeFR2 (negFree : Bool) (x : Fields) : Except IllegalReason (FReg × FReg × FReg) := do
  mustBeZero (decide (x.imm8 = 0))
  mustBeZero (negFree || !x.neg)
  let rd ← fieldIndex x.rd
  let rs1 ← fieldIndex x.rs1
  let rs2 ← fieldIndex x.rs2
  return (rd, rs1, rs2)

/-- The two field-register indices of a command of format FR1 (rule R92). -/
def decodeFR1 (negFree : Bool) (x : Fields) : Except IllegalReason (FReg × FReg) := do
  mustBeZero (decide (x.rs2 = 0))
  mustBeZero (decide (x.imm8 = 0))
  mustBeZero (negFree || !x.neg)
  let rd ← fieldIndex x.rd
  let rs1 ← fieldIndex x.rs1
  return (rd, rs1)

/-- The command that the fields name, once bits [31:29] are 0 (rules R92, R93). -/
def decodeOpcode (x : Fields) : Except IllegalReason Instr :=
  match x.opcode.toNat with
  | 0x01 => do
    let r ← decodeFR1 true x
    return .norm x.neg r.1 r.2
  | 0x02 => do
    let r ← decodeFR2 true x
    return .normw x.neg r.1 r.2.1 r.2.2
  | 0x03 => do
    let r ← decodeFR2 false x
    return .madd r.1 r.2.1 r.2.2
  | 0x04 => do
    let r ← decodeFR2 false x
    return .msub r.1 r.2.1 r.2.2
  | 0x05 => do
    let r ← decodeFR2 false x
    return .mmul r.1 r.2.1 r.2.2
  | 0x06 => do
    let r ← decodeFR1 false x
    return .minv r.1 r.2
  | 0x07 => do
    let r ← decodeFR2 false x
    return .mpow r.1 r.2.1 r.2.2
  | 0x10 => do
    mustBeZero (decide (x.imm8 = 0))
    mustBeZero (!x.neg)
    let rd ← pointIndex x.rd
    let rs1 ← pointIndex x.rs1
    let rs2 ← pointIndex x.rs2
    return .padd rd rs1 rs2
  | 0x11 => do
    mustBeZero (decide (x.imm8 = 0))
    let rd ← pointIndex x.rd
    let rs1 ← pointIndex x.rs1
    let rs2 ← fieldIndex x.rs2
    return .smul x.neg rd rs1 rs2
  | 0x12 => do
    mustBeZero (!x.neg)
    let rd ← pointIndex x.rd
    let rs1 ← fieldIndex x.rs1
    let rs2 ← fieldIndex x.rs2
    return .pdec x.imm8 rd rs1 rs2
  | _ => .error .reservedOpcode

/-- Decoding of the raw fields (rule R97, conditions 1 to 4). -/
def decodeFields (x : Fields) : Except IllegalReason Instr :=
  if x.reserved = 0 then decodeOpcode x else .error .reservedBits

/-- Decode a command word. "Decoding is total" (rule R101). -/
def decode (c : Word32) : Except IllegalReason Instr := decodeFields (Fields.ofWord c)

/-- The fields of a command with both modifiers absent. -/
def plainFields (opcode : Nat) (rd rs1 rs2 : Nat) : Fields where
  opcode := BitVec.ofNat 8 opcode
  rd := BitVec.ofNat 4 rd
  rs1 := BitVec.ofNat 4 rs1
  rs2 := BitVec.ofNat 4 rs2
  imm8 := 0
  neg := false
  reserved := 0

/-- The fields of a command (rules R91 to R96). -/
def encodeFields : Instr → Fields
  | .norm neg rd rs1 => { plainFields 0x01 rd rs1 0 with neg := neg }
  | .normw neg rd rs1 rs2 => { plainFields 0x02 rd rs1 rs2 with neg := neg }
  | .madd rd rs1 rs2 => plainFields 0x03 rd rs1 rs2
  | .msub rd rs1 rs2 => plainFields 0x04 rd rs1 rs2
  | .mmul rd rs1 rs2 => plainFields 0x05 rd rs1 rs2
  | .minv rd rs1 => plainFields 0x06 rd rs1 0
  | .mpow rd rs1 rs2 => plainFields 0x07 rd rs1 rs2
  | .padd rd rs1 rs2 => plainFields 0x10 rd rs1 rs2
  | .smul neg rd rs1 rs2 => { plainFields 0x11 rd rs1 rs2 with neg := neg }
  | .pdec tag rd rs1 rs2 => { plainFields 0x12 rd rs1 rs2 with imm8 := tag }

/-- The command word of an instruction (rules R91, R93). -/
def encode (i : Instr) : Word32 := (encodeFields i).toWord

/-- A row of the opcode map (rule R93): a word `c` is the row's command exactly when `(c and mask) = match`. -/
structure OpcodeRow where
  mnemonic : String
  matchWord : Word32
  mask : Word32
deriving DecidableEq, Repr

/-- The `match` and `mask` columns of rule R93. -/
def opcodeTable : List OpcodeRow := [
  ⟨"NORM", 0x00000001#32, 0xEFFF88FF#32⟩,
  ⟨"NORMW", 0x00000002#32, 0xEFF888FF#32⟩,
  ⟨"MADD", 0x00000003#32, 0xFFF888FF#32⟩,
  ⟨"MSUB", 0x00000004#32, 0xFFF888FF#32⟩,
  ⟨"MMUL", 0x00000005#32, 0xFFF888FF#32⟩,
  ⟨"MINV", 0x00000006#32, 0xFFFF88FF#32⟩,
  ⟨"MPOW", 0x00000007#32, 0xFFF888FF#32⟩,
  ⟨"PADD", 0x00000010#32, 0xFFFCCCFF#32⟩,
  ⟨"SMUL", 0x00000011#32, 0xEFF8CCFF#32⟩,
  ⟨"PDEC", 0x00000012#32, 0xF0088CFF#32⟩]

/-- The mnemonic of an instruction as the opcode table spells it (rule R93). -/
def Instr.mnemonic : Instr → String
  | .norm _ _ _ => "NORM"
  | .normw _ _ _ _ => "NORMW"
  | .madd _ _ _ => "MADD"
  | .msub _ _ _ => "MSUB"
  | .mmul _ _ _ => "MMUL"
  | .minv _ _ => "MINV"
  | .mpow _ _ _ => "MPOW"
  | .padd _ _ _ => "PADD"
  | .smul _ _ _ _ => "SMUL"
  | .pdec _ _ _ _ => "PDEC"

/-- The word a byte-addressed host bus carries, little-endian (rule R63). -/
def wordOfBytes (b0 b1 b2 b3 : Byte) : Word32 := b3 ++ b2 ++ b1 ++ b0

/-- Decode the first command word of a byte string laid out as rule R63 says, with the bytes that follow it. -/
def decodeBytes : List Byte → Except IllegalReason (Instr × List Byte)
  | b0 :: b1 :: b2 :: b3 :: rest =>
    match decode (wordOfBytes b0 b1 b2 b3) with
    | .ok i => .ok (i, rest)
    | .error r => .error r
  | _ => .error .truncated

/-- What the decoder reads from an instruction whose bits, numbered as the opcode table numbers them, are `w`. -/
def decodeTableWord (nbits w : Nat) : Option Instr :=
  match decode (BitVec.ofNat 32 (w % 2 ^ nbits)) with
  | .ok i => some i
  | .error _ => none

end Sys2Proof
end

