-- ==== Sys2Proof/Machine/State.lean ====
section
/-! DEFINITION. The state of ECORE (10_state.md) as plain data, the error kinds (60_exceptions.md), the host's actions
(45_host_sequences.md), the reasons a step can stop, and the state after reset. -/

namespace Sys2Proof.Machine

/-- The error kinds of rule R251, in the order of their codes. -/
inductive ErrKind where
  /-- Code 1, "malformed or empty hexadecimal text": the host only, never the block (R252). -/
  | invalidHexInput
  /-- Code 2: a legal command is executed while `cp <= 3` (R256). -/
  | invalidCurveParameters
  /-- Code 3: `modInverse` of a value sharing a factor with p (R253). -/
  | notInvertible
  /-- Code 4: compressed decoding while p mod 4 is not 3 (R254). -/
  | unsupportedModulus
  /-- Code 5: an unknown tag (R257). -/
  | malformedPublicKeyEncoding
  /-- Code 6: a negative scalar (R260). -/
  | invalidScalar
  /-- Code 7: the curve equation fails under `CTRL.STRICT` (R261). -/
  | pointNotOnCurve
  /-- Code 8: the word is not a legal encoding (R255). -/
  | illegalCommand
deriving DecidableEq, Repr

/-- The value of a point register (rules R12, R26): the identity, or an affine pair of stored numbers. Equality is
structural. -/
inductive Point where
  | identity
  | affine (x y : Nat)
deriving DecidableEq, Repr

/-- A point register: the identity flag and two coordinates (rule R22). -/
structure PointReg where
  inf : Bool
  x : Word
  y : Word
deriving DecidableEq, Repr

/-- The sequencer state (rule R29). -/
inductive Seq where
  | idle
  | busy
deriving DecidableEq, Repr

/-- The width of a window access that the host's bus offers (rule R66): only `word` is a step of the host. -/
inductive AccessWidth where
  | byte | half | word | wide
deriving DecidableEq, Repr

/-- What the host can do (rules R14, R220): read or write the window at a 12-bit byte offset, assert reset, observe
`irq`. -/
inductive HostAction where
  | winRead (off : BitVec 12) (width : AccessWidth)
  | winWrite (off : BitVec 12) (width : AccessWidth) (v : Word32)
  | reset
  | observeIrq
deriving DecidableEq, Repr

/-- What an observing host action returned: the word of a read (rule R64) or the level of `irq` (rule R266). -/
inductive Seen where
  | word (w : Word32)
  | irq (level : Bool)
deriving DecidableEq, Repr

/-- The state of the block (rule R20), its parameter (rule R7), and the model's own fields `host`, `seen`, `wait`
(INVENTORY.md, log 1 to 3). `STATUS.BUSY` is `seq = busy` (rule R44); `PTINF` is the `inf` flags (rule R47). -/
structure State where
  /-- The parameter W, fixed for one machine (R7). -/
  cfg : Config
  /-- Field registers (R21). -/
  f : Vector Word 8
  /-- Point registers (R22). -/
  pt : Vector PointReg 4
  /-- Curve coefficient a (R24). -/
  ca : Word
  /-- Curve coefficient b (R24). -/
  cb : Word
  /-- The modulus p (R24). -/
  cp : Word
  /-- The order n, storage only (R25). -/
  cn : Word
  /-- `CTRL.LOCK` (R42). -/
  ctrlLock : Bool
  /-- `CTRL.STRICT` (R42). -/
  ctrlStrict : Bool
  /-- `CMD`, the last latched command word (R43). -/
  cmd : Word32
  /-- `STATUS.DONE` (R44). -/
  statusDone : Bool
  /-- `STATUS.ERR` (R44). -/
  statusErr : BitVec 8
  /-- `INTEN.DONE_IE` (R45). -/
  intenDone : Bool
  /-- `INTEN.ERR_IE` (R45). -/
  intenErr : Bool
  /-- `ERRLOG` (R46). -/
  errlog : Word32
  /-- The sequencer state (R29). -/
  seq : Seq
  /-- The model's own: host actions the port has yet to deliver, in order (R71). -/
  host : List HostAction
  /-- The model's own: what the last observing host action returned. -/
  seen : Option Seen
  /-- The model's own: host actions still delivered before the running command completes (the free latency). -/
  wait : Nat
deriving DecidableEq, Repr

/-- Why a step faults: it never does. "There are no fatal/process-level failures inherent to the core" (rules R29,
R250); an error of a command is an outcome in `STATUS`, not a stop. No constructor, so nothing raises one. -/
inductive Fault where
deriving DecidableEq, Repr

/-- Why a step is refused. -/
inductive Refusal where
  /-- Raised by exec's arm of an instruction that has no meaning yet; none is left. Safe. -/
  | notModelled (mnemonic : String)
  /-- Raised by a host access that is not 32 bits wide: "the model refuses such an access (it is not a step of the
  host)" (rule R66). Safe. -/
  | notWordAccess
  /-- Raised by a host access at an offset that is not a multiple of 4 (rule R66). Safe. -/
  | misalignedAccess
deriving DecidableEq, Repr

/-- Every register at its reset value (rules R49, R290), for a block with parameter `cfg`; no host action pending. -/
def State.resetWith (cfg : Config) : State where
  cfg := cfg
  f := Vector.replicate 8 0
  pt := Vector.replicate 4 { inf := false, x := 0, y := 0 }
  ca := 0
  cb := 0
  cp := 0
  cn := 0
  ctrlLock := false
  ctrlStrict := true
  cmd := 0
  statusDone := false
  statusErr := 0
  intenDone := false
  intenErr := false
  errlog := 0
  seq := .idle
  host := []
  seen := none
  wait := 0

/-- The default block (W = 256, rule R7) right after reset (rule R49). -/
def State.reset : State := State.resetWith Config.default

end Sys2Proof.Machine

namespace Sys2Proof

/-- The free latency of rule R7 (`latency`, "no rule depends on it"), counted in host actions that the port delivers
between the acceptance of a command and its completion. It has no body: nothing can be proved of its value. It is applied
to the state in which the accepted word already stands in `CMD`, so it may depend "on the command and its operand values"
(rule R306), secrets included (rule R308); that it is a function of that state is the model's choice (log 1). -/
opaque Config.latency : Machine.State → Nat

end Sys2Proof
end

