-- ==== Sys2Proof/Machine/Arith.lean ====
section
/-! DEFINITION. The three functions of the field arithmetic (rules R11, R122, R128, R130) on exact integers, and the
bit length (rule R10). -/

namespace Sys2Proof.Machine

/-- `normalize(v, p)`, the unique r in [0, p) congruent to v, for any integer v (rule R122). -/
def normalize (v : Int) (p : Nat) : Nat := (v % (p : Int)).toNat

/-- The extended Euclidean loop (rule R133) on the remainder pair `r0 r1` and the coefficient pair `t0 t1`, with fuel;
`r1` is fuel enough. It answers the gcd and its coefficient. -/
def euclid : Nat → Nat → Nat → Int → Int → Nat × Int
  | 0, r0, _, t0, _ => (r0, t0)
  | fuel + 1, r0, r1, t0, t1 =>
    if r1 = 0 then (r0, t0) else euclid fuel r1 (r0 % r1) t1 (t0 - ((r0 / r1 : Nat) : Int) * t1)

/-- `modInverse(v, p)`: the inverse when `gcd(v mod p, p) = 1`, otherwise NotInvertible (rule R128). -/
def modInverse (v p : Nat) : Except ErrKind Nat :=
  let r := euclid p p (v % p) 0 1
  if r.1 = 1 then .ok (normalize r.2 p) else .error .notInvertible

/-- `bitlen(k)`, with `bitlen(0) = 1` (rule R10). -/
def bitlen (k : Nat) : Nat := if k = 0 then 1 else k.log2 + 1

/-- Repeated squaring over the bits of the exponent below position `i`, most significant first (rule R134). -/
def powLoop (base exp p : Nat) : Nat → Nat → Nat
  | 0, r => r
  | i + 1, r =>
    powLoop base exp p i (if exp.testBit i then (r * r % p) * base % p else r * r % p)

/-- `modPow(base, exp, p)` (rule R130): `base ^ exp mod p`, computed by repeated squaring from 1. -/
def modPow (base exp p : Nat) : Nat := powLoop base exp p (bitlen exp) 1

end Sys2Proof.Machine
end

