-- ==== Sys2Proof/Machine/Flags.lean ====
section
/-! DEFINITION. The control and status words the window shows (10_state.md section 3), the error codes and ERRLOG bits
(rule R251, R46), and the interrupt output (rule R266). -/

namespace Sys2Proof.Machine

/-- The code of an error kind (rule R251). -/
def ErrKind.code : ErrKind → Nat
  | .invalidHexInput => 1
  | .invalidCurveParameters => 2
  | .notInvertible => 3
  | .unsupportedModulus => 4
  | .malformedPublicKeyEncoding => 5
  | .invalidScalar => 6
  | .pointNotOnCurve => 7
  | .illegalCommand => 8

/-- The `ERRLOG` word with only bit `n` set (rule R46). -/
def logBit (n : Nat) : Word32 := 1#32 <<< n

/-- `ERRLOG.BUSYWR`, bit 9 (rule R46). -/
def busyWrBit : Nat := 9

/-- `ERRLOG.LOCKWR`, bit 10 (rule R46). -/
def lockWrBit : Nat := 10

/-- Set bit `n` of `ERRLOG` (rule R46). -/
def State.logSet (s : State) (n : Nat) : State := { s with errlog := s.errlog ||| logBit n }

/-- `ID` (rule R40). -/
def idWord : Word32 := 0x45434301#32

/-- `CONFIG` (rule R41): NP, NF, NW. -/
def configWord (cfg : Config) : Word32 := 0#16 ++ BitVec.ofNat 4 NP ++ BitVec.ofNat 4 NF ++ BitVec.ofNat 8 cfg.nw

/-- `CTRL` as read (rule R42). -/
def ctrlWord (s : State) : Word32 := 0#30 ++ BitVec.ofBool s.ctrlStrict ++ BitVec.ofBool s.ctrlLock

/-- `STATUS.BUSY`: 1 exactly when `seq = BUSY` (rules R29, R44). -/
def State.busy (s : State) : Bool := decide (s.seq = .busy)

/-- `STATUS` as read (rule R44). -/
def statusWord (s : State) : Word32 :=
  0#16 ++ s.statusErr ++ 0#6 ++ BitVec.ofBool s.statusDone ++ BitVec.ofBool s.busy

/-- `INTEN` as read (rule R45). -/
def intenWord (s : State) : Word32 := 0#30 ++ BitVec.ofBool s.intenErr ++ BitVec.ofBool s.intenDone

/-- `PTINF` as read (rule R47). -/
def ptinfWord (s : State) : Word32 :=
  0#28 ++ BitVec.ofBool s.pt[3].inf ++ BitVec.ofBool s.pt[2].inf ++ BitVec.ofBool s.pt[1].inf
    ++ BitVec.ofBool s.pt[0].inf

/-- The interrupt output (rule R266). -/
def irq (s : State) : Bool := (s.intenDone && s.statusDone) || (s.intenErr && decide (s.statusErr ≠ 0))

end Sys2Proof.Machine
end

