-- ==== Sys2Proof/Machine/Operands.lean ====
section
/-! DEFINITION. The operand forms of the commands (rules R10, R94 to R96): what a command reads, as exact integers. -/

namespace Sys2Proof.Machine

/-- `f[i]`, the content of a field register (rule R21). -/
def State.fieldReg (s : State) (i : FReg) : Word := s.f.get i

/-- The content of point register j (rule R22). -/
def State.pointReg (s : State) (j : PReg) : PointReg := s.pt.get j

/-- A field register as an unsigned integer (rules R9, R10). -/
def fieldOperand (s : State) (i : FReg) : Nat := (s.fieldReg i).toNat

/-- The `neg` modifier: minus the magnitude when it is 1 (rule R96). -/
def signed (neg : Bool) (magnitude : Nat) : Int := if neg then -(magnitude : Int) else (magnitude : Int)

/-- `f[hi] * 2^W + f[lo]`, the magnitude of NORMW (rule R124). -/
def wideMagnitude (s : State) (lo hi : FReg) : Nat := fieldOperand s hi * 2 ^ s.cfg.W + fieldOperand s lo

/-- The Point value of a point register (rule R26). -/
def PointReg.value (r : PointReg) : Point := if r.inf then .identity else .affine r.x.toNat r.y.toNat

/-- `Pt(j)` (rules R10, R26). -/
def pointOperand (s : State) (j : PReg) : Point := (s.pointReg j).value

/-- The curve coefficient a (rule R24). -/
def coeffA (s : State) : Nat := s.ca.toNat

/-- The curve coefficient b (rule R24). -/
def coeffB (s : State) : Nat := s.cb.toNat

/-- The modulus p (rule R24). -/
def modulus (s : State) : Nat := s.cp.toNat

end Sys2Proof.Machine
end

