-- ==== Sys2Proof/Machine/Ops.lean ====
section
/-! DEFINITION. The shared operations: register writes by a command, the common checks (rule R101), and completion with
a result or an error, which is this hardware's exception entry (rules R258, R259, R268), with the acknowledge that ends
it (rules R44, R269). -/

namespace Sys2Proof.Machine

/-- `f[i] <- v` (rule R10). -/
def State.setField (s : State) (i : FReg) (v : Word) : State := { s with f := s.f.set i v }

/-- Write a whole point register. -/
def State.setPoint (s : State) (j : PReg) (r : PointReg) : State := { s with pt := s.pt.set j r }

/-- The register form of a Point: `pt[j] <- Identity` writes `inf = 1, x = 0, y = 0` (rules R10, R26). -/
def Point.toReg : Point → PointReg
  | .identity => { inf := true, x := 0, y := 0 }
  | .affine x y => { inf := false, x := BitVec.ofNat 1024 x, y := BitVec.ofNat 1024 y }

/-- What a command that raises no error writes: its one destination (rule R27). -/
inductive Result where
  | field (rd : FReg) (v : Nat)
  | point (rd : PReg) (r : Point)
deriving DecidableEq, Repr

/-- Write the destination register (rules R10, R27). -/
def State.writeResult (s : State) : Result → State
  | .field rd v => s.setField rd (BitVec.ofNat 1024 v)
  | .point rd r => s.setPoint rd r.toReg

/-- The end of every command: the error code, `DONE`, back to IDLE (rule R259). -/
def State.finish (s : State) (code : Nat) : State :=
  { s with statusErr := BitVec.ofNat 8 code, statusDone := true, seq := .idle }

/-- Taking an error, "trap entry, in the checklist's sense" (rules R258, R259, R268): the code in `STATUS.ERR`, its bit in
`ERRLOG`, `DONE`, IDLE; nothing else changes (rule R263). -/
def takeError (e : ErrKind) (s : State) : State := (s.logSet e.code).finish e.code

/-- The acknowledge of `STATUS`, which ends an error condition (rules R44, R267, R269). -/
def acknowledge (s : State) : State := { s with statusDone := false, statusErr := 0 }

/-- The completion step's effect for an outcome (rule R259). -/
def complete (s : State) : Except ErrKind Result → State
  | .ok r => (s.writeResult r).finish 0
  | .error e => takeError e s

/-- Condition 5 of rule R97: the destination is `pt[0]` and the curve is locked. -/
def lockedDest (s : State) (rd : PReg) : Bool := s.ctrlLock && decide (rd = 0)

/-- The common checks in their order (rules R101, R262): legality, then `cp <= 3`, then the command's own rule. -/
def checked (s : State) (illegal : Bool) (own : Except ErrKind Result) : Except ErrKind Result :=
  if illegal then .error .illegalCommand
  else if modulus s ≤ 3 then .error .invalidCurveParameters
  else own

/-- A command with a field destination, from its own rule's value or error. -/
def fieldCommand (s : State) (rd : FReg) (own : Except ErrKind Nat) : Host.Outcome State Fault Refusal :=
  .next (complete s (checked s false (own.map (Result.field rd))))

/-- A command with a point destination, from its own rule's value or error. -/
def pointCommand (s : State) (rd : PReg) (own : Except ErrKind Point) : Host.Outcome State Fault Refusal :=
  .next (complete s (checked s (lockedDest s rd) (own.map (Result.point rd))))

end Sys2Proof.Machine
end

