-- ==== Sys2Proof/Machine/FieldArithmetic.lean ====
section
/-! DEFINITION. The field arithmetic commands NORM, NORMW, MADD, MSUB, MMUL, MINV, MPOW (40_field_arithmetic.md). -/

namespace Sys2Proof.Machine

/-- NORM (rule R123). -/
def execNorm (neg : Bool) (rd rs1 : FReg) (s : State) : Host.Outcome State Fault Refusal :=
  fieldCommand s rd (.ok (normalize (signed neg (fieldOperand s rs1)) (modulus s)))

/-- NORMW (rule R124): `rs1` holds the low W bits, `rs2` the high W bits. -/
def execNormw (neg : Bool) (rd rs1 rs2 : FReg) (s : State) : Host.Outcome State Fault Refusal :=
  fieldCommand s rd (.ok (normalize (signed neg (wideMagnitude s rs1 rs2)) (modulus s)))

/-- MADD (rule R125). -/
def execMadd (rd rs1 rs2 : FReg) (s : State) : Host.Outcome State Fault Refusal :=
  fieldCommand s rd (.ok (normalize ((fieldOperand s rs1 : Int) + fieldOperand s rs2) (modulus s)))

/-- MSUB (rule R126): the exact difference may be negative. -/
def execMsub (rd rs1 rs2 : FReg) (s : State) : Host.Outcome State Fault Refusal :=
  fieldCommand s rd (.ok (normalize ((fieldOperand s rs1 : Int) - fieldOperand s rs2) (modulus s)))

/-- MMUL (rule R127). -/
def execMmul (rd rs1 rs2 : FReg) (s : State) : Host.Outcome State Fault Refusal :=
  fieldCommand s rd (.ok (normalize ((fieldOperand s rs1 : Int) * fieldOperand s rs2) (modulus s)))

/-- MINV (rule R129). -/
def execMinv (rd rs1 : FReg) (s : State) : Host.Outcome State Fault Refusal :=
  fieldCommand s rd (modInverse (fieldOperand s rs1) (modulus s))

/-- MPOW (rule R131). -/
def execMpow (rd rs1 rs2 : FReg) (s : State) : Host.Outcome State Fault Refusal :=
  fieldCommand s rd (.ok (modPow (fieldOperand s rs1) (fieldOperand s rs2) (modulus s)))

end Sys2Proof.Machine
end

