-- ==== Sys2Proof/Machine/GroupLaw.lean ====
section
/-! DEFINITION. The point adder (41_group_law.md): `add(curve, A, B)` and the command PADD. -/

namespace Sys2Proof.Machine

/-- Steps 3 and 4 of rule R161 (rule R166): the third point of the chord or tangent of slope `m`, reflected. -/
def chordPoint (p m ax ay bx : Nat) : Point :=
  let rx := normalize ((m : Int) ^ 2 - ax - bx) p
  .affine rx (normalize ((m : Int) * ((ax : Int) - rx) - ay) p)

/-- The slope of the tangent at `(x, y)` (rule R164). -/
def tangentSlope (p a x y : Nat) : Except ErrKind Nat :=
  (modInverse (2 * y) p).map fun (u : Nat) => normalize ((3 * (x : Int) ^ 2 + a) * u) p

/-- The slope of the chord (rule R165); `dx` is already normalised. -/
def chordSlope (p dx ay by' : Nat) : Except ErrKind Nat :=
  (modInverse dx p).map fun (u : Nat) => normalize (((by' : Int) - ay) * u) p

/-- `add` of two affine points (rule R161, steps 2 to 4): the vertical chord is tested on the normalised difference,
equality on the stored numbers (rules R163, R167, R168). -/
def addAffine (p a ax ay bx by' : Nat) : Except ErrKind Point :=
  let dx := normalize ((bx : Int) - ax) p
  if dx = 0 ∧ ay ≠ by' then .ok .identity
  else if ax = bx ∧ ay = by' then (tangentSlope p a ax ay).map fun (m : Nat) => chordPoint p m ax ay bx
  else (chordSlope p dx ay by').map fun (m : Nat) => chordPoint p m ax ay bx

/-- `add(curve, A, B)` (rule R161). -/
def pointAdd (p a : Nat) (A B : Point) : Except ErrKind Point :=
  match A, B with
  | .identity, B => .ok B
  | .affine ax ay, .identity => .ok (.affine ax ay)
  | .affine ax ay, .affine bx by' => addAffine p a ax ay bx by'

/-- PADD (rules R160, R161). -/
def execPadd (rd rs1 rs2 : PReg) (s : State) : Host.Outcome State Fault Refusal :=
  pointCommand s rd (pointAdd (modulus s) (coeffA s) (pointOperand s rs1) (pointOperand s rs2))

end Sys2Proof.Machine
end

