-- ==== Sys2Proof/Machine/PointDecompressor.lean ====
section
/-! DEFINITION. The point decompressor (43_point_decompressor.md): `decodePoint` on a tag and integers, and PDEC. -/

namespace Sys2Proof.Machine

/-- `x^3 + a*x + b`, exact (rule R201). -/
def curveRhs (a b x : Nat) : Int := (x : Int) ^ 3 + a * x + b

/-- Tag 0x04 (rules R202, R203): the numbers as given, tested on residues when `strict`. -/
def decodeUncompressed (p a b : Nat) (strict : Bool) (x y : Nat) : Except ErrKind Point :=
  if strict && decide (normalize ((y : Int) ^ 2 - curveRhs a b x) p ≠ 0) then .error .pointNotOnCurve
  else .ok (.affine x y)

/-- Tags 0x02 and 0x03 (rules R204 to R206): `y0 = r^((p+1)/4)`, checked when `strict`, then the parity step. -/
def decodeCompressed (p a b : Nat) (strict : Bool) (tag x : Nat) : Except ErrKind Point :=
  if p % 4 ≠ 3 then .error .unsupportedModulus
  else
    let r := normalize (curveRhs a b x) p
    let y0 := modPow r ((p + 1) / 4) p
    if strict && decide (normalize ((y0 : Int) * y0) p ≠ r) then .error .pointNotOnCurve
    else .ok (.affine x (if y0 % 2 ≠ tag % 2 then normalize ((p : Int) - y0) p else y0))

/-- `decodePoint(curve, encoding)` on a tag and integers (rules R201, R207). -/
def decodePoint (p a b : Nat) (strict : Bool) (tag x y : Nat) : Except ErrKind Point :=
  if tag = 0x04 then decodeUncompressed p a b strict x y
  else if tag = 0x02 ∨ tag = 0x03 then decodeCompressed p a b strict tag x
  else .error .malformedPublicKeyEncoding

/-- PDEC (rules R200, R201). -/
def execPdec (tag : BitVec 8) (rd : PReg) (rs1 rs2 : FReg) (s : State) : Host.Outcome State Fault Refusal :=
  pointCommand s rd
    (decodePoint (modulus s) (coeffA s) (coeffB s) s.ctrlStrict tag.toNat (fieldOperand s rs1) (fieldOperand s rs2))

end Sys2Proof.Machine
end

