-- ==== Sys2Proof/Machine/ScalarMultiplier.lean ====
section
/-! DEFINITION. The scalar multiplier (42_scalar_multiplier.md): left-to-right double-and-add and the command SMUL. -/

namespace Sys2Proof.Machine

/-- One turn of the loop (rules R181, R184): double ACC, then add P when the bit of k is 1. An error ends it. -/
def smulTurn (p a : Nat) (P : Point) (bit : Bool) (acc : Point) : Except ErrKind Point :=
  match pointAdd p a acc acc with
  | .error e => .error e
  | .ok doubled => if bit then pointAdd p a doubled P else .ok doubled

/-- The loop of rules R181 and R184: BITIDX runs from the given number of positions minus 1 down to 0, and `acc` is ACC
(rule R182). -/
def smulLoop (p a : Nat) (P : Point) (k : Nat) : Nat → Point → Except ErrKind Point
  | 0, acc => .ok acc
  | bitIdx + 1, acc =>
    match smulTurn p a P (k.testBit bitIdx) acc with
    | .error e => .error e
    | .ok next => smulLoop p a P k bitIdx next

/-- `scalarMultiply(curve, P, k)` (rules R181, R185): negative k is rejected, k = 0 is the identity, and the accumulator
starts from P, which consumes the most significant bit. -/
def scalarMultiply (p a : Nat) (P : Point) (k : Int) : Except ErrKind Point :=
  if k < 0 then .error .invalidScalar
  else if k = 0 then .ok .identity
  else smulLoop p a P k.toNat (bitlen k.toNat - 1) P

/-- SMUL (rules R180, R181). -/
def execSmul (neg : Bool) (rd rs1 : PReg) (rs2 : FReg) (s : State) : Host.Outcome State Fault Refusal :=
  pointCommand s rd
    (scalarMultiply (modulus s) (coeffA s) (pointOperand s rs1) (signed neg (fieldOperand s rs2)))

end Sys2Proof.Machine
end

