-- ==== Sys2Proof/Machine/Dispatch.lean ====
section
/-! DEFINITION. One arm per command: what the completion step does for it (rules R101, R259). -/

namespace Sys2Proof.Machine

def exec (i : Instr) (s : State) : Host.Outcome State Fault Refusal :=
  match i with
  | .norm neg rd rs1 => Sys2Proof.Machine.execNorm neg rd rs1 s
  | .normw neg rd rs1 rs2 => Sys2Proof.Machine.execNormw neg rd rs1 rs2 s
  | .madd rd rs1 rs2 => Sys2Proof.Machine.execMadd rd rs1 rs2 s
  | .msub rd rs1 rs2 => Sys2Proof.Machine.execMsub rd rs1 rs2 s
  | .mmul rd rs1 rs2 => Sys2Proof.Machine.execMmul rd rs1 rs2 s
  | .minv rd rs1 => Sys2Proof.Machine.execMinv rd rs1 s
  | .mpow rd rs1 rs2 => Sys2Proof.Machine.execMpow rd rs1 rs2 s
  | .padd rd rs1 rs2 => Sys2Proof.Machine.execPadd rd rs1 rs2 s
  | .smul neg rd rs1 rs2 => Sys2Proof.Machine.execSmul neg rd rs1 rs2 s
  | .pdec tag rd rs1 rs2 => Sys2Proof.Machine.execPdec tag rd rs1 rs2 s

end Sys2Proof.Machine
end

