-- ==== Sys2Proof/Machine/Window.lean ====
section
/-! DEFINITION. The register window (20_memory.md): the map (rule R61), the slot layout (rule R62), WinRead (rule R64),
WinWrite (rule R65) with the BUSY and LOCK gates (rules R69, R70), and the acceptance of a command (rule R101). -/

namespace Sys2Proof.Machine

/-- The W-bit registers that have a slot in the window (rule R61). -/
inductive SlotReg where
  | ca | cb | cp | cn
  | field (i : FReg)
  | ptX (j : PReg)
  | ptY (j : PReg)
deriving DecidableEq, Repr

/-- What stands at an offset of the window (rule R61). -/
inductive Location where
  | id | config | ctrl | cmd | status | inten | errlog | ptinf
  | slot (r : SlotReg) (word : Nat)
  | unmapped
deriving DecidableEq, Repr

/-- The slot that starts at offset 128 * k (rule R61). -/
def slotAt (k : Nat) : Option SlotReg :=
  match k with
  | 0x01 => some .ca
  | 0x02 => some .cb
  | 0x03 => some .cp
  | 0x04 => some .cn
  | 0x08 => some (.field 0)
  | 0x09 => some (.field 1)
  | 0x0A => some (.field 2)
  | 0x0B => some (.field 3)
  | 0x0C => some (.field 4)
  | 0x0D => some (.field 5)
  | 0x0E => some (.field 6)
  | 0x0F => some (.field 7)
  | 0x10 => some (.ptX 0)
  | 0x11 => some (.ptY 0)
  | 0x12 => some (.ptX 1)
  | 0x13 => some (.ptY 1)
  | 0x14 => some (.ptX 2)
  | 0x15 => some (.ptY 2)
  | 0x16 => some (.ptX 3)
  | 0x17 => some (.ptY 3)
  | _ => none

/-- The byte offset of a register's slot (rule R61): 0x400 + 0x80 * i, 0x800 + 0x100 * j, 0x880 + 0x100 * j. -/
def SlotReg.base : SlotReg → Nat
  | .ca => 0x080
  | .cb => 0x100
  | .cp => 0x180
  | .cn => 0x200
  | .field i => 0x400 + 0x80 * i
  | .ptX j => 0x800 + 0x100 * j
  | .ptY j => 0x880 + 0x100 * j

/-- The control or status register at word k of the window (rule R61). -/
def controlRegAt (k : Nat) : Location :=
  match k with
  | 0 => .id
  | 1 => .config
  | 2 => .ctrl
  | 3 => .cmd
  | 4 => .status
  | 5 => .inten
  | 6 => .errlog
  | 7 => .ptinf
  | _ => .unmapped

/-- What stands at the aligned byte offset `off`; the words of a slot at or above NW are unmapped (rules R61, R62, R67). -/
def locate (nw : Nat) (off : BitVec 12) : Location :=
  if off.toNat < 128 then controlRegAt (off.toNat / 4)
  else
    match slotAt (off.toNat / 128) with
    | some r => if off.toNat % 128 / 4 < nw then .slot r (off.toNat % 128 / 4) else .unmapped
    | none => .unmapped

/-- The content of a slot's register. -/
def readSlot (s : State) : SlotReg → Word
  | .ca => s.ca
  | .cb => s.cb
  | .cp => s.cp
  | .cn => s.cn
  | .field i => s.fieldReg i
  | .ptX j => (s.pointReg j).x
  | .ptY j => (s.pointReg j).y

/-- Replace the content of a slot's register; a coordinate write keeps the `inf` flag (vector WN-22). -/
def writeSlot (s : State) (r : SlotReg) (v : Word) : State :=
  match r with
  | .ca => { s with ca := v }
  | .cb => { s with cb := v }
  | .cp => { s with cp := v }
  | .cn => { s with cn := v }
  | .field i => s.setField i v
  | .ptX j => s.setPoint j { s.pointReg j with x := v }
  | .ptY j => s.setPoint j { s.pointReg j with y := v }

/-- Bits [32m+31:32m] of a register (rule R62). -/
def getWord (r : Word) (m : Nat) : Word32 := r.extractLsb' (32 * m) 32

/-- Replace bits [32m+31:32m] of a register, "the other bits of the register unchanged" (rule R65). -/
def setWord (r : Word) (m : Nat) (v : Word32) : Word :=
  (r &&& ~~~((BitVec.allOnes 32).setWidth 1024 <<< (32 * m))) ||| (v.setWidth 1024 <<< (32 * m))

/-- The slots that `CTRL.LOCK` protects (rule R70). -/
def SlotReg.lockProtected : SlotReg → Bool
  | .ca => true
  | .cb => true
  | .cp => true
  | .cn => true
  | .field _ => false
  | .ptX j => decide (j = 0)
  | .ptY j => decide (j = 0)

/-- `WinRead(off)` (rule R64): the word at an aligned offset. It changes no state. -/
def winRead (s : State) (off : BitVec 12) : Word32 :=
  match locate s.cfg.nw off with
  | .id => idWord
  | .config => configWord s.cfg
  | .ctrl => ctrlWord s
  | .cmd => s.cmd
  | .status => statusWord s
  | .inten => intenWord s
  | .errlog => s.errlog
  | .ptinf => ptinfWord s
  | .slot r m => getWord (readSlot s r) m
  | .unmapped => 0

/-- The byte that a byte-addressed host bus shows at an offset: the byte at offset + 0 of a word is bits [7:0] (rule R63).
The block itself has no byte access; this is the bus's cut of the word that `winRead` gives. -/
def busByte (s : State) (off : BitVec 12) : Byte :=
  (winRead s (off &&& ~~~3#12)).extractLsb' (8 * (off.toNat % 4)) 8

/-- What rule R101 changes when the word `c` is accepted; "Nothing else changes at acceptance". -/
def latchCommand (s : State) (c : Word32) : State :=
  { s with cmd := c, statusDone := false, statusErr := 0, seq := .busy }

/-- Accepting a command (rule R101). The number of host actions before its completion is free; that it is taken on the
state AFTER the word is latched, so that it may depend on the word and on every register it names (rules R189, R306,
R308), is the model's choice (log 1, DESIGN CHOICE). -/
def acceptCommand (s : State) (c : Word32) : State :=
  { latchCommand s c with wait := Config.latency (latchCommand s c) }

/-- A write to `CTRL` in IDLE (rule R42): LOCK is set by 1 and kept by 0, STRICT is written. -/
def writeCtrl (s : State) (v : Word32) : State :=
  { s with ctrlLock := s.ctrlLock || v.getLsbD 0, ctrlStrict := v.getLsbD 1 }

/-- A write to `INTEN` (rule R45). -/
def writeInten (s : State) (v : Word32) : State :=
  { s with intenDone := v.getLsbD 0, intenErr := v.getLsbD 1 }

/-- A write to `ERRLOG`: writing 1 to a bit clears it (rule R46). -/
def writeErrlog (s : State) (v : Word32) : State := { s with errlog := s.errlog &&& ~~~v }

/-- A write to `STATUS`: bit 1 is the acknowledge, everything else is ignored (rule R44). -/
def writeStatus (s : State) (v : Word32) : State := if v.getLsbD 1 then acknowledge s else s

/-- Write the `inf` flag of point register j, keeping x and y (rule R47). -/
def State.setInf (s : State) (j : PReg) (b : Bool) : State := s.setPoint j { s.pointReg j with inf := b }

/-- A write to `PTINF` in IDLE (rule R47): under the lock bit 0 is kept, and LOCKWR records a write that would have
changed it. -/
def writePtinf (s : State) (v : Word32) : State :=
  let t := ((s.setInf 1 (v.getLsbD 1)).setInf 2 (v.getLsbD 2)).setInf 3 (v.getLsbD 3)
  if s.ctrlLock then
    if v.getLsbD 0 = (s.pointReg 0).inf then t else t.logSet lockWrBit
  else t.setInf 0 (v.getLsbD 0)

/-- A write to word m of a slot in IDLE (rules R65, R70). -/
def writeSlotWord (s : State) (r : SlotReg) (m : Nat) (v : Word32) : State :=
  if r.lockProtected && s.ctrlLock then s.logSet lockWrBit
  else writeSlot s r (setWord (readSlot s r) m v)

/-- The BUSY gate (rule R69): a gated write changes nothing and sets BUSYWR. -/
def gated (s : State) (idleEffect : State) : State := if s.busy then s.logSet busyWrBit else idleEffect

/-- `WinWrite(off, v)` at an aligned offset (rule R65). -/
def winWrite (s : State) (off : BitVec 12) (v : Word32) : State :=
  match locate s.cfg.nw off with
  | .id => s
  | .config => s
  | .unmapped => s
  | .status => writeStatus s v
  | .inten => writeInten s v
  | .errlog => writeErrlog s v
  | .cmd => gated s (acceptCommand s v)
  | .ctrl => gated s (writeCtrl s v)
  | .ptinf => gated s (writePtinf s v)
  | .slot r m => gated s (writeSlotWord s r m v)

end Sys2Proof.Machine
end

