-- ==== Sys2Proof/Machine/Sequencer.lean ====
section
/-! DEFINITION. The two agents' steps (rule R14): the block's completion step (rules R101, R259) and the host's actions
(rules R64 to R66, R220, R290), and which of them is next (log 1). -/

namespace Sys2Proof.Machine

/-- The completion step (rule R259): `CMD` is evaluated by rule R101; a word that is no command completes with
IllegalCommand (rule R255). -/
def completionStep (s : State) : Host.Outcome State Fault Refusal :=
  match decode s.cmd with
  | .ok i => exec i s
  | .error _ => .next (takeError .illegalCommand s)

/-- The host action Reset (rules R290, R291): the whole state takes its reset values, a running command is abandoned. The
block's parameter, the host's own pending actions and what it has seen are not the block's to reset (log 8). -/
def hostReset (s : State) : State := { State.resetWith s.cfg with host := s.host, seen := s.seen }

/-- Why an access is no step of the host (rule R66); none for an aligned word access. -/
def accessRefusal (off : BitVec 12) (width : AccessWidth) : Option Refusal :=
  if width ≠ .word then some .notWordAccess
  else if off.toNat % 4 ≠ 0 then some .misalignedAccess
  else none

/-- One host action (rules R64, R65, R66, R220). -/
def hostAction (a : HostAction) (s : State) : Host.Outcome State Fault Refusal :=
  match a with
  | .winRead off width =>
    match accessRefusal off width with
    | some r => .refused r
    | none => .next { s with seen := some (.word (winRead s off)) }
  | .winWrite off width v =>
    match accessRefusal off width with
    | some r => .refused r
    | none => .next (winWrite s off v)
  | .reset => .next (hostReset s)
  | .observeIrq => .next { s with seen := some (.irq (irq s)) }

/-- The block moves next: a command is running, and its free latency is over or the host does nothing more. -/
def blockMoves (s : State) : Bool := s.busy && (s.host.isEmpty || decide (s.wait = 0))

/-- One step of the pair of agents. In IDLE with no host action the block "does nothing until the next window access"
(rule R275). -/
def sequencerStep (s : State) : Host.Outcome State Fault Refusal :=
  if blockMoves s then completionStep s
  else
    match s.host with
    | [] => .next s
    | a :: rest => hostAction a { s with host := rest, wait := s.wait - 1 }

/-- The state in which `c` has just been accepted and completes next (rule R101, log 4). -/
def withCommand (s : State) (c : Word32) : State :=
  { latchCommand s c with wait := 0 }

end Sys2Proof.Machine
end

