-- ==== Sys2Proof/Machine/Step.lean ====
section
/-! DEFINITION. One step of the machine, and the placing of a command word as the accepted command. -/

namespace Sys2Proof.Machine

/-- One step: the block's completion step or the host's next action (rule R14). -/
def step (s : State) : Host.Outcome State Fault Refusal := sequencerStep s

/-- `s` with the command word whose bits are `w` accepted, so that the very next step runs it. There is no fetch (rule
R73): the word stands in `CMD` and `seq` is BUSY (log 4). -/
def State.withFetchWord (s : State) (nbits w : Nat) : State := withCommand s (BitVec.ofNat 32 (w % 2 ^ nbits))

end Sys2Proof.Machine
end

