-- ==== Sys2Proof/Machine/HexCodec.lean ====
section
/-! DEFINITION. The host's hexadecimal codec and the cutting of a point encoding (rules R222, R223, R229). Text is a list
of characters. This is host software, kept as the contract at the window (rule R4). -/

namespace Sys2Proof.Machine

/-- The value of a hexadecimal digit, either case (rule R222). -/
def hexDigit (c : Char) : Option Nat :=
  if '0'.toNat ≤ c.toNat ∧ c.toNat ≤ '9'.toNat then some (c.toNat - '0'.toNat)
  else if 'A'.toNat ≤ c.toNat ∧ c.toNat ≤ 'F'.toNat then some (c.toNat - 'A'.toNat + 10)
  else if 'a'.toNat ≤ c.toNat ∧ c.toNat ≤ 'f'.toNat then some (c.toNat - 'a'.toNat + 10)
  else none

/-- The number that the digits spell after `acc`, most significant digit first (rule R222). -/
def hexValue (acc : Nat) : List Char → Option Nat
  | [] => some acc
  | c :: cs =>
    match hexDigit c with
    | some d => hexValue (16 * acc + d) cs
    | none => none

/-- `decodeHex(s)` (rule R222): InvalidHexInput on an empty input or any other character. -/
def decodeHex (s : List Char) : Except ErrKind Nat :=
  if s.isEmpty then .error .invalidHexInput
  else
    match hexValue 0 s with
    | some v => .ok v
    | none => .error .invalidHexInput

/-- The capital hexadecimal digit of `d` < 16 (rule R223). -/
def hexChar (d : Nat) : Char := Char.ofNat (if d < 10 then '0'.toNat + d else 'A'.toNat + (d - 10))

/-- The lowest `n` hexadecimal digits of `v`, most significant first. -/
def hexDigits : Nat → Nat → List Char
  | 0, _ => []
  | n + 1, v => hexDigits n (v / 16) ++ [hexChar (v % 16)]

/-- The number of hexadecimal digits of `v`, 1 for zero. -/
def hexLength (v : Nat) : Nat := (bitlen v + 3) / 4

/-- `encodeHex(v, minWidth)` (rule R223): zero-padded to `minWidth`, a longer value written in full. -/
def encodeHex (v minWidth : Nat) : List Char := hexDigits (max minWidth (hexLength v)) v

/-- `fieldByteWidth` = ceil(bitlen(p) / 8) (rule R223). -/
def fieldByteWidth (p : Nat) : Nat := (bitlen p + 7) / 8

/-- A point encoding cut into its tag and coordinates (rule R222). -/
structure PointText where
  tag : Nat
  x : Nat
  y : Option Nat
deriving DecidableEq, Repr

/-- Split a point encoding (rules R222, R229): tag 04 takes two equal halves, tags 02 and 03 one number; any other tag is
failed at once, as the rule lets the host do (log 7). Which error is given when a character that is no hexadecimal digit
stands beside a wrong length or an unknown tag, the rules (R222, R257) leave open: that the whole text is decoded first, so
that InvalidHexInput wins, is the model's choice (log 7, DESIGN CHOICE). -/
def splitEncoding (s : List Char) : Except ErrKind PointText :=
  match decodeHex s with
  | .error e => .error e
  | .ok _ =>
    match s with
    | t1 :: t0 :: rest => do
      let tag ← decodeHex [t1, t0]
      if tag = 0x04 then
        if rest.length % 2 ≠ 0 then .error .malformedPublicKeyEncoding
        else
          let x ← decodeHex (rest.take (rest.length / 2))
          let y ← decodeHex (rest.drop (rest.length / 2))
          return { tag := tag, x := x, y := some y }
      else if tag = 0x02 ∨ tag = 0x03 then
        let x ← decodeHex rest
        return { tag := tag, x := x, y := none }
      else .error .malformedPublicKeyEncoding
    | _ => .error .malformedPublicKeyEncoding

/-- `compress(P)` of an affine point (rules R229, R230). -/
def compressText (p x y : Nat) : List Char :=
  (if y % 2 = 0 then ['0', '2'] else ['0', '3']) ++ encodeHex x (2 * fieldByteWidth p)

/-- `uncompress(P)` of an affine point (rules R229, R230). -/
def uncompressText (p x y : Nat) : List Char :=
  ['0', '4'] ++ encodeHex x (2 * fieldByteWidth p) ++ encodeHex y (2 * fieldByteWidth p)

end Sys2Proof.Machine
end

