-- ==== Sys2Proof/Machine/HostSequence.lean ====
section
/-! DEFINITION. The host's directives and pseudo-instructions as sequences of its actions (rules R100, R221, R224 to
R230). A sequence runs the same `hostAction` and `completionStep` that the machine's step runs. -/

namespace Sys2Proof.Machine

/-- Why a host sequence gives up: an error kind (the block's or the host's own, rule R232), a value of 2^W or more that
the host refuses to write (rule R8), a command sent while BUSY (rule R221), a poll for a `DONE` that nothing will set
(log 12), or an access the block refuses (rule R66). -/
inductive HostError where
  | kind (e : ErrKind)
  | code (c : Nat)
  | valueTooWide
  | notIdle
  | pollsForEver
  | access (r : Refusal)
deriving DecidableEq, Repr

/-- How a host sequence ends: with a value, or failed; the machine's state in either case. -/
inductive HostEnd (α : Type) where
  | done (a : α) (s : State)
  | failed (e : HostError) (s : State)
deriving DecidableEq, Repr

/-- Go on with the next part of a sequence; a failure ends it (rule R221, "immediate failure to the caller"). -/
def HostEnd.andThen {α β : Type} (r : HostEnd α) (k : α → State → HostEnd β) : HostEnd β :=
  match r with
  | .done a s => k a s
  | .failed e s => .failed e s

/-- The result of a host-side function that does not touch the block. -/
def HostEnd.lift {α : Type} (r : Except ErrKind α) (s : State) : HostEnd α :=
  match r with
  | .ok a => .done a s
  | .error e => .failed (.kind e) s

/-- Take a list of host actions in order. -/
def perform : List HostAction → State → HostEnd Unit
  | [], s => .done () s
  | a :: rest, s =>
    match hostAction a s with
    | .next t => perform rest t
    | .refused r => .failed (.access r) s
    | .fault r => nomatch r

/-- The offset of word m of a slot (rules R61, R62). -/
def slotOffset (r : SlotReg) (m : Nat) : BitVec 12 := BitVec.ofNat 12 (r.base + 4 * m)

/-- `SET reg, value` (rule R100): NW word writes, low word first. -/
def setActions (nw : Nat) (r : SlotReg) (v : Nat) : List HostAction :=
  (List.range nw).map fun m => .winWrite (slotOffset r m) .word (getWord (BitVec.ofNat 1024 v) m)

/-- Run `SET reg, value`; a value of 2^W or more is refused before the window is touched (rule R8). -/
def runSet (r : SlotReg) (v : Nat) (s : State) : HostEnd Unit :=
  if v < 2 ^ s.cfg.W then perform (setActions s.cfg.nw r v) s else .failed .valueTooWide s

/-- The number spelled by the lowest `n` words of a slot as the window shows them. -/
def readWords (s : State) (r : SlotReg) : Nat → Nat
  | 0 => 0
  | n + 1 => readWords s r n + (winRead s (slotOffset r n)).toNat * 2 ^ (32 * n)

/-- `GET reg` (rule R100): NW word reads. -/
def runGet (r : SlotReg) (s : State) : Nat := readWords s r s.cfg.nw

/-- The control registers by name (rule R61). -/
inductive ControlReg where
  | id | config | ctrl | cmd | status | inten | errlog | ptinf
deriving DecidableEq, Repr

/-- The offset of a control register (rule R61). -/
def ControlReg.offset : ControlReg → BitVec 12
  | .id => 0x000
  | .config => 0x004
  | .ctrl => 0x008
  | .cmd => 0x00C
  | .status => 0x010
  | .inten => 0x014
  | .errlog => 0x018
  | .ptinf => 0x01C

/-- `WR name, v` (rule R100): one word write to a control register; what it does there is rule R65's. -/
def wrActions (r : ControlReg) (v : Word32) : List HostAction := [.winWrite r.offset .word v]

/-- `PTINF` bit j as read. -/
def infBit (s : State) (j : PReg) : Bool := (winRead s ControlReg.ptinf.offset).getLsbD j

/-- `SETINF ptj, b` (rule R100): write `PTINF` with bit j changed. -/
def setInfActions (s : State) (j : PReg) (b : Bool) : List HostAction :=
  wrActions .ptinf ((winRead s ControlReg.ptinf.offset &&& ~~~(logBit j)) ||| (if b then logBit j else 0))

/-- `ACK` (rule R100): write 2 to `STATUS`. -/
def ackActions : List HostAction := wrActions .status 2#32

/-- `STATUS` as the host reads it. -/
def readStatus (s : State) : Word32 := winRead s ControlReg.status.offset

/-- `STATUS.ERR` as the host reads it (rule R221, `s[15:8]`). -/
def readErr (s : State) : Nat := ((readStatus s).extractLsb' 8 8).toNat

/-- `WAIT` (rule R100): poll `STATUS` until `DONE = 1`, and yield `STATUS.ERR`. While a command runs the loop ends at its
completion step (rule R306), and the reads before it change nothing (rule R64). With no command running and `DONE = 0`
nothing will set `DONE`, and the loop has no end to give a value at: the sequence fails by name (log 12). -/
def runWait (s : State) : HostEnd Nat :=
  if (readStatus s).getLsbD 1 then .done (readErr s) s
  else if (readStatus s).getLsbD 0 then
    match completionStep s with
    | .next t => .done (readErr t) t
    | .refused r => .failed (.access r) s
    | .fault r => nomatch r
  else .failed .pollsForEver s

/-- `RUN c` (rule R221). -/
def runCommand (c : Word32) (s : State) : HostEnd Unit :=
  if (readStatus s).getLsbD 0 then .failed .notIdle s
  else
    (perform (wrActions .cmd c) s).andThen fun _ s1 =>
      (runWait s1).andThen fun err s2 => if err = 0 then .done () s2 else .failed (.code err) s2

/-- The numbers that `BUILDCURVE` presents to the block (rule R224). -/
structure CurveText where
  a : Nat
  b : Nat
  p : Nat
  n : Nat
  g : PointText
deriving DecidableEq, Repr

/-- Decode the five texts of `BUILDCURVE`, in the order of rule R224. -/
def decodeCurve (aHex bHex pHex nHex gEncoding : List Char) : Except ErrKind CurveText := do
  let a ← decodeHex aHex
  let b ← decodeHex bHex
  let p ← decodeHex pHex
  let n ← decodeHex nHex
  let g ← splitEncoding gEncoding
  return { a := a, b := b, p := p, n := n, g := g }

/-- Every number fits a register of the block, so the host does not refuse it (rules R8, R222). -/
def CurveText.fits (c : CurveText) (cfg : Config) : Bool :=
  ([c.a, c.b, c.p, c.n, c.g.x] ++ c.g.y.toList).all fun v => decide (v < 2 ^ cfg.W)

/-- The part of `BUILDCURVE` that drives the window (rule R224): load the curve registers, build G with PDEC, optionally
set LOCK. -/
def loadCurve (c : CurveText) (lock : Bool) (s : State) : HostEnd Unit :=
  (runSet .ca c.a s).andThen fun _ s =>
  (runSet .cb c.b s).andThen fun _ s =>
  (runSet .cp c.p s).andThen fun _ s =>
  (runSet .cn c.n s).andThen fun _ s =>
  (runSet (.field 0) c.g.x s).andThen fun _ s =>
  (match c.g.y with
    | some y => (runSet (.field 1) y s).andThen fun _ s => runCommand (encode (.pdec 0x04 0 0 1)) s
    | none => runCommand (encode (.pdec (BitVec.ofNat 8 c.g.tag) 0 0 0)) s).andThen fun _ s =>
  if lock then perform (wrActions .ctrl (0#30 ++ BitVec.ofBool s.ctrlStrict ++ BitVec.ofBool true)) s
  else .done () s

/-- `BUILDCURVE` (rule R224). A text that does not decode, and a number of 2^W or more among the decoded ones, is refused
"before touching the window" (rule R8). -/
def buildCurve (aHex bHex pHex nHex gEncoding : List Char) (lock : Bool) (s : State) : HostEnd Unit :=
  (HostEnd.lift (decodeCurve aHex bHex pHex nHex gEncoding) s).andThen fun c s =>
  if c.fits s.cfg then loadCurve c lock s else .failed .valueTooWide s

/-- The Point that the host reads from point register j: `PTINF` bit j and the two slots (rule R226). -/
def readPoint (s : State) (j : PReg) : Point :=
  if infBit s j then .identity else .affine (runGet (.ptX j) s) (runGet (.ptY j) s)

/-- `DERIVEPUB` (rule R226): the scalar into f0, `SMUL pt1, G, f0`, the result from pt1. -/
def derivePublicKey (scalarHex : List Char) (s : State) : HostEnd Point :=
  (HostEnd.lift (decodeHex scalarHex) s).andThen fun k s =>
  (runSet (.field 0) k s).andThen fun _ s =>
  (runCommand (encode (.smul false 1 0 0)) s).andThen fun _ s => .done (readPoint s 1) s

/-- What `FORMATPOINT` returns (rules R227, R228). -/
inductive Formatted where
  | infinity
  | coordinates (x y : List Char)
deriving DecidableEq, Repr

/-- `FORMATPOINT` (rule R227). -/
def formatPoint (P : Point) (byteWidth : Nat) : Formatted :=
  match P with
  | .identity => .infinity
  | .affine x y => .coordinates (encodeHex x (2 * byteWidth)) (encodeHex y (2 * byteWidth))

/-- `COMPRESS ptj` (rule R230): "For the identity neither is defined". -/
def compressPoint (p : Nat) : Point → Option (List Char)
  | .identity => none
  | .affine x y => some (compressText p x y)

/-- `UNCOMPRESS ptj` (rule R230). -/
def uncompressPoint (p : Nat) : Point → Option (List Char)
  | .identity => none
  | .affine x y => some (uncompressText p x y)

end Sys2Proof.Machine
end

