-- ==== Sys2Proof/Safety.lean ====
section
/-! DEFINITION. The invariant of the machine, the legal parameter included, and the runs that count as safe. -/

namespace Sys2Proof.Machine

/-- What holds of every state the machine can reach: the facts that the rules state of registers at all times. -/
structure State.Inv (s : State) : Prop where
  /-- W is a multiple of 32 from 32 to 1024 (rule R7). -/
  cfgLegal : s.cfg.legal
  /-- "A register may hold any value in [0, 2^W)" (rule R21). -/
  fieldFits : ∀ i : FReg, (s.fieldReg i).toNat < 2 ^ s.cfg.W
  /-- Coordinates are W bits (rule R22). -/
  pointFits : ∀ j : PReg, (s.pointReg j).x.toNat < 2 ^ s.cfg.W ∧ (s.pointReg j).y.toNat < 2 ^ s.cfg.W
  /-- Curve registers are W bits (rule R24). -/
  curveFits : s.ca.toNat < 2 ^ s.cfg.W ∧ s.cb.toNat < 2 ^ s.cfg.W ∧ s.cp.toNat < 2 ^ s.cfg.W ∧ s.cn.toNat < 2 ^ s.cfg.W
  /-- "(in `BUSY` both fields are already 0)" (rule R44). -/
  busyClear : s.seq = .busy → s.statusDone = false ∧ s.statusErr = 0
  /-- The error code belongs to a completed command (rule R44). -/
  errDone : s.statusErr ≠ 0 → s.statusDone = true
  /-- "Codes 9 to 255 are never produced" (rule R251), and the block never completes with code 1 (rule R252). -/
  errCode : s.statusErr.toNat ≤ 8 ∧ s.statusErr.toNat ≠ 1
  /-- "Bit 0 and bits [31:11] read 0" (rule R46), and bit 1 is never set (rule R252). -/
  logReserved : s.errlog &&& ~~~0x7FC#32 = 0

/-- The only way a step stops is a host access that rule R66 refuses; a host whose pending accesses are all aligned
words never meets one. -/
def HostAction.aligned : HostAction → Bool
  | .winRead off width => (accessRefusal off width).isNone
  | .winWrite off width _ => (accessRefusal off width).isNone
  | .reset => true
  | .observeIrq => true

/-- A safe state: the invariant holds and every pending host action is one the block takes. -/
structure State.Safe (s : State) : Prop where
  inv : s.Inv
  hostAligned : ∀ a ∈ s.host, a.aligned = true

end Sys2Proof.Machine
end

