-- ==== Sys2Proof/Certificates/Slice0/Obligations.lean ====
section
/-! DEFINITION. The statements for the provers. The definitions in namespace Sys2Proof.Spec say, from the rules and in
their own words, what the statements are about: the end states of a command, inverses, point addition and multiples as
relations, illegal words, and the offsets of the window. -/

namespace Sys2Proof.Spec

open Sys2Proof Sys2Proof.Machine

/-- The end of a command whose result is `v` in field register `rd` (rule R259): the destination, `ERR = 0`, `DONE = 1`,
IDLE, and nothing else. -/
def fieldDone (s : State) (rd : FReg) (v : Nat) : State :=
  { s with f := s.f.set rd (BitVec.ofNat 1024 v), statusErr := 0, statusDone := true, seq := .idle }

/-- The register form of a point (rule R10). -/
def registerOf : Point → PointReg
  | .identity => { inf := true, x := 0, y := 0 }
  | .affine x y => { inf := false, x := BitVec.ofNat 1024 x, y := BitVec.ofNat 1024 y }

/-- The end of a command whose result is `r` in point register `rd` (rule R259). -/
def pointDone (s : State) (rd : PReg) (r : Point) : State :=
  { s with pt := s.pt.set rd (registerOf r), statusErr := 0, statusDone := true, seq := .idle }

/-- The end of a command with the error of a code (rules R258, R259): `ERR`, the `ERRLOG` bit, `DONE = 1`, IDLE, and
nothing else. -/
def errorDone (s : State) (code : Nat) : State :=
  { s with statusErr := BitVec.ofNat 8 code, errlog := s.errlog ||| (1#32 <<< code), statusDone := true, seq := .idle }

/-- The command word with the given field values (rule R91). -/
def commandWord (opcode rd rs1 rs2 imm8 neg : Nat) : Word32 :=
  BitVec.ofNat 32 (opcode + 2 ^ 8 * rd + 2 ^ 12 * rs1 + 2 ^ 16 * rs2 + 2 ^ 20 * imm8 + 2 ^ 28 * neg)

/-- `c` is the one word that decodes to `i`. -/
def EncodedAs (i : Instr) (c : Word32) : Prop := ∀ w, decode w = .ok i ↔ w = c

/-- Point commands with destination `rd` are illegal (rule R97, condition 5). -/
def Locked (s : State) (rd : PReg) : Prop := s.ctrlLock = true ∧ rd = 0

/-- `u` is the inverse of `v` modulo `p` (rule R128). -/
def IsInverse (p v u : Nat) : Prop := u < p ∧ v * u % p = 1

/-- The point of rule R166 for the slope `m`: `Rx = normalize(m^2 - A.x - B.x)`, `Ry = normalize(m*(A.x - Rx) - A.y)`. -/
def ThirdPoint (p : Nat) (m ax ay bx : Int) (r : Point) : Prop :=
  ∃ rx ry : Nat, r = .affine rx ry ∧ (rx : Int) = (m ^ 2 - ax - bx) % p ∧ (ry : Int) = (m * (ax - rx) - ay) % p

/-- `r` is `add(curve, A, B)` (rule R161), the inverse given by its contract (rule R128). -/
def AddsTo (p a : Nat) : Point → Point → Point → Prop
  | .identity, B, r => r = B
  | .affine ax ay, .identity, r => r = .affine ax ay
  | .affine ax ay, .affine bx by', r =>
    (((bx : Int) - ax) % p = 0 ∧ ay ≠ by' ∧ r = .identity) ∨
    (ax = bx ∧ ay = by' ∧ ∃ u, IsInverse p (2 * ay) u ∧
      ThirdPoint p (((3 * (ax : Int) ^ 2 + a) * u) % p) ax ay bx r) ∨
    (¬ (((bx : Int) - ax) % p = 0 ∧ ay ≠ by') ∧ ¬ (ax = bx ∧ ay = by') ∧
      ∃ u, IsInverse p (((bx : Int) - ax) % p).toNat u ∧ ThirdPoint p ((((by' : Int) - ay) * u) % p) ax ay bx r)

/-- `add(curve, A, B)` raises NotInvertible (rules R161, R164, R165): the divisor of the slope shares a factor with p. -/
def AddFails (p : Nat) : Point → Point → Prop
  | .affine ax ay, .affine bx by' =>
    (ax = bx ∧ ay = by' ∧ Nat.gcd (2 * ay % p) p ≠ 1) ∨
    (¬ (((bx : Int) - ax) % p = 0 ∧ ay ≠ by') ∧ ¬ (ax = bx ∧ ay = by') ∧
      Nat.gcd (((bx : Int) - ax) % p).toNat p ≠ 1)
  | _, _ => False

/-- `r` is the result of double-and-add for `k` (rules R181, R184): the leading bit gives P, every further bit doubles,
and adds P when it is 1. -/
inductive MultipleOf (p a : Nat) (P : Point) : Nat → Point → Prop where
  | one : MultipleOf p a P 1 P
  | double {k : Nat} {q d : Point} : MultipleOf p a P k q → AddsTo p a q q d → MultipleOf p a P (2 * k) d
  | doubleAdd {k : Nat} {q d r : Point} : MultipleOf p a P k q → AddsTo p a q q d → AddsTo p a d P r →
      MultipleOf p a P (2 * k + 1) r

/-- A word that rule R97 calls illegal: it matches no row of rule R93, or it is a point command with a locked destination. -/
def IllegalWord (s : State) (c : Word32) : Prop :=
  (∀ r ∈ opcodeTable, c &&& r.mask ≠ r.matchWord) ∨
  (s.ctrlLock = true ∧ (c.extractLsb' 0 8).toNat ∈ [0x10, 0x11, 0x12] ∧ c.extractLsb' 8 4 = 0)

/-- A command is running and the block completes it in this step: the free latency is over, or the host does nothing more
(log 1 and log 9, the model's own scheduling). -/
def CompletesNow (s : State) : Prop := s.seq = .busy ∧ (s.wait = 0 ∨ s.host = [])

/-- The aligned byte offset `n` of the window. -/
def offset (n : Nat) : BitVec 12 := BitVec.ofNat 12 n

/-- The offsets of rule R67: the gaps of the map of rule R61, and the words of a slot at or above NW. -/
def Unmapped (nw n : Nat) : Prop :=
  (0x020 ≤ n ∧ n < 0x080) ∨ (0x280 ≤ n ∧ n < 0x400) ∨ (0xC00 ≤ n ∧ n < 0x1000) ∨
    (0x080 ≤ n ∧ n < 0xC00 ∧ nw ≤ n % 128 / 4)

/-- `new` is `old` with bits [32m+31:32m] replaced by `v`, "the other bits of the register unchanged" (rule R65). -/
def WordReplaced (old new : Word) (m : Nat) (v : Word32) : Prop :=
  ∀ k, k < 1024 →
    new.getLsbD k = if 32 * m ≤ k ∧ k < 32 * m + 32 then v.getLsbD (k - 32 * m) else old.getLsbD k

/-- Bits [32m+31:32m] of a register (rule R62). -/
def wordOf (r : Word) (m : Nat) : Word32 := r.extractLsb' (32 * m) 32

/-- The affine pair satisfies y^2 = x^3 + a*x + b modulo p (rule R203). -/
def OnCurve (p a b x y : Nat) : Prop := ((y : Int) ^ 2 - ((x : Int) ^ 3 + a * x + b)) % p = 0

/-- The command's destination is field register `k` (rule R94). -/
def WritesField (i : Instr) (k : FReg) : Prop :=
  (∃ neg x, i = .norm neg k x) ∨ (∃ neg x y, i = .normw neg k x y) ∨ (∃ x y, i = .madd k x y) ∨
  (∃ x y, i = .msub k x y) ∨ (∃ x y, i = .mmul k x y) ∨ (∃ x, i = .minv k x) ∨ (∃ x y, i = .mpow k x y)

/-- The command's destination is point register `j` (rule R94). -/
def WritesPoint (i : Instr) (j : PReg) : Prop :=
  (∃ x y, i = .padd j x y) ∨ (∃ neg x y, i = .smul neg j x y) ∨ (∃ tag x y, i = .pdec tag j x y)

end Sys2Proof.Spec

open Sys2Proof Sys2Proof.Machine Sys2Proof.Spec

/-! ### The commands -/

/-- R123. -/
def Obligations.NormReducesSignedMagnitude : Prop :=
  ∀ (neg : Bool) (rd rs1 : FReg) (s : State),
    (3 < s.cp.toNat → exec (.norm neg rd rs1) s = .next (fieldDone s rd
      ((if neg then -(fieldOperand s rs1 : Int) else (fieldOperand s rs1 : Int)) % (s.cp.toNat : Int)).toNat)) ∧
    (s.cp.toNat ≤ 3 → exec (.norm neg rd rs1) s = .next (errorDone s 2)) ∧
    EncodedAs (.norm neg rd rs1) (commandWord 0x01 rd rs1 0 0 neg.toNat)

/-- R124. -/
def Obligations.NormwReducesDoubleWidth : Prop :=
  ∀ (neg : Bool) (rd rs1 rs2 : FReg) (s : State),
    (3 < s.cp.toNat → exec (.normw neg rd rs1 rs2) s = .next (fieldDone s rd
      ((if neg then -((fieldOperand s rs2 * 2 ^ (32 * s.cfg.nw) + fieldOperand s rs1 : Nat) : Int)
        else ((fieldOperand s rs2 * 2 ^ (32 * s.cfg.nw) + fieldOperand s rs1 : Nat) : Int)) % (s.cp.toNat : Int)).toNat)) ∧
    (s.cp.toNat ≤ 3 → exec (.normw neg rd rs1 rs2) s = .next (errorDone s 2)) ∧
    EncodedAs (.normw neg rd rs1 rs2) (commandWord 0x02 rd rs1 rs2 0 neg.toNat)

/-- R125: the exact sum, reduced. -/
def Obligations.MaddAddsModP : Prop :=
  ∀ (rd rs1 rs2 : FReg) (s : State),
    (3 < s.cp.toNat → exec (.madd rd rs1 rs2) s = .next
      (fieldDone s rd ((fieldOperand s rs1 + fieldOperand s rs2) % s.cp.toNat))) ∧
    (s.cp.toNat ≤ 3 → exec (.madd rd rs1 rs2) s = .next (errorDone s 2)) ∧
    EncodedAs (.madd rd rs1 rs2) (commandWord 0x03 rd rs1 rs2 0 0)

/-- R126: the exact difference, which may be negative, reduced into [0, p). -/
def Obligations.MsubSubtractsModP : Prop :=
  ∀ (rd rs1 rs2 : FReg) (s : State),
    (3 < s.cp.toNat → ∃ v : Nat, v < s.cp.toNat ∧
      (s.cp.toNat : Int) ∣ (fieldOperand s rs1 : Int) - fieldOperand s rs2 - v ∧
      exec (.msub rd rs1 rs2) s = .next (fieldDone s rd v)) ∧
    (s.cp.toNat ≤ 3 → exec (.msub rd rs1 rs2) s = .next (errorDone s 2)) ∧
    EncodedAs (.msub rd rs1 rs2) (commandWord 0x04 rd rs1 rs2 0 0)

/-- R127: the exact product, reduced. -/
def Obligations.MmulMultipliesModP : Prop :=
  ∀ (rd rs1 rs2 : FReg) (s : State),
    (3 < s.cp.toNat → exec (.mmul rd rs1 rs2) s = .next
      (fieldDone s rd (fieldOperand s rs1 * fieldOperand s rs2 % s.cp.toNat))) ∧
    (s.cp.toNat ≤ 3 → exec (.mmul rd rs1 rs2) s = .next (errorDone s 2)) ∧
    EncodedAs (.mmul rd rs1 rs2) (commandWord 0x05 rd rs1 rs2 0 0)

/-- R128, R129: the inverse of the contract, unique, exactly when the gcd is 1. -/
def Obligations.MinvWritesTheUniqueInverse : Prop :=
  ∀ (rd rs1 : FReg) (s : State),
    (3 < s.cp.toNat → Nat.gcd (fieldOperand s rs1 % s.cp.toNat) s.cp.toNat = 1 →
      ∃ u, IsInverse s.cp.toNat (fieldOperand s rs1) u ∧
        (∀ w, IsInverse s.cp.toNat (fieldOperand s rs1) w → w = u) ∧
        exec (.minv rd rs1) s = .next (fieldDone s rd u)) ∧
    (3 < s.cp.toNat → Nat.gcd (fieldOperand s rs1 % s.cp.toNat) s.cp.toNat ≠ 1 →
      exec (.minv rd rs1) s = .next (errorDone s 3)) ∧
    (s.cp.toNat ≤ 3 → exec (.minv rd rs1) s = .next (errorDone s 2)) ∧
    EncodedAs (.minv rd rs1) (commandWord 0x06 rd rs1 0 0 0)

/-- R130, R131: the power, with `base^0 = 1` for every base. -/
def Obligations.MpowWritesThePower : Prop :=
  ∀ (rd rs1 rs2 : FReg) (s : State),
    (3 < s.cp.toNat → exec (.mpow rd rs1 rs2) s = .next
      (fieldDone s rd (fieldOperand s rs1 ^ fieldOperand s rs2 % s.cp.toNat))) ∧
    (s.cp.toNat ≤ 3 → exec (.mpow rd rs1 rs2) s = .next (errorDone s 2)) ∧
    EncodedAs (.mpow rd rs1 rs2) (commandWord 0x07 rd rs1 rs2 0 0)

/-- R160, R161: the result of the case analysis, which is unique, or NotInvertible exactly where `AddFails`. -/
def Obligations.PaddFollowsTheCaseAnalysis : Prop :=
  ∀ (rd rs1 rs2 : PReg) (s : State),
    (¬ Locked s rd → 3 < s.cp.toNat → ¬ AddFails s.cp.toNat (pointOperand s rs1) (pointOperand s rs2) →
      ∃ r, AddsTo s.cp.toNat s.ca.toNat (pointOperand s rs1) (pointOperand s rs2) r ∧
        (∀ r', AddsTo s.cp.toNat s.ca.toNat (pointOperand s rs1) (pointOperand s rs2) r' → r' = r) ∧
        exec (.padd rd rs1 rs2) s = .next (pointDone s rd r)) ∧
    (¬ Locked s rd → 3 < s.cp.toNat → AddFails s.cp.toNat (pointOperand s rs1) (pointOperand s rs2) →
      exec (.padd rd rs1 rs2) s = .next (errorDone s 3)) ∧
    (¬ Locked s rd → s.cp.toNat ≤ 3 → exec (.padd rd rs1 rs2) s = .next (errorDone s 2)) ∧
    (Locked s rd → exec (.padd rd rs1 rs2) s = .next (errorDone s 8)) ∧
    EncodedAs (.padd rd rs1 rs2) (commandWord 0x10 rd rs1 rs2 0 0)

/-- R180, R181, R185: negative k, k = 0, and the double-and-add multiple or the NotInvertible of an inner `add`. -/
def Obligations.SmulComputesDoubleAndAdd : Prop :=
  ∀ (neg : Bool) (rd rs1 : PReg) (rs2 : FReg) (s : State),
    (¬ Locked s rd → 3 < s.cp.toNat → fieldOperand s rs2 = 0 →
      exec (.smul neg rd rs1 rs2) s = .next (pointDone s rd .identity)) ∧
    (¬ Locked s rd → 3 < s.cp.toNat → neg = false → fieldOperand s rs2 ≠ 0 → ∀ r,
      MultipleOf s.cp.toNat s.ca.toNat (pointOperand s rs1) (fieldOperand s rs2) r →
      exec (.smul neg rd rs1 rs2) s = .next (pointDone s rd r)) ∧
    (¬ Locked s rd → 3 < s.cp.toNat → neg = false → fieldOperand s rs2 ≠ 0 →
      (∀ r, ¬ MultipleOf s.cp.toNat s.ca.toNat (pointOperand s rs1) (fieldOperand s rs2) r) →
      exec (.smul neg rd rs1 rs2) s = .next (errorDone s 3)) ∧
    (¬ Locked s rd → 3 < s.cp.toNat → neg = true → fieldOperand s rs2 ≠ 0 →
      exec (.smul neg rd rs1 rs2) s = .next (errorDone s 6)) ∧
    (¬ Locked s rd → s.cp.toNat ≤ 3 → exec (.smul neg rd rs1 rs2) s = .next (errorDone s 2)) ∧
    (Locked s rd → exec (.smul neg rd rs1 rs2) s = .next (errorDone s 8)) ∧
    EncodedAs (.smul neg rd rs1 rs2) (commandWord 0x11 rd rs1 rs2 0 neg.toNat)

/-- R202, R203: tag 0x04 writes the numbers as given, after the curve test when STRICT is 1. -/
def Obligations.PdecUncompressedTakesTheNumbersAsGiven : Prop :=
  ∀ (rd : PReg) (rs1 rs2 : FReg) (s : State), ¬ Locked s rd → 3 < s.cp.toNat →
    (s.ctrlStrict = false ∨
        OnCurve s.cp.toNat s.ca.toNat s.cb.toNat (fieldOperand s rs1) (fieldOperand s rs2) →
      exec (.pdec 0x04#8 rd rs1 rs2) s = .next (pointDone s rd (.affine (fieldOperand s rs1) (fieldOperand s rs2)))) ∧
    (s.ctrlStrict = true →
        ¬ OnCurve s.cp.toNat s.ca.toNat s.cb.toNat (fieldOperand s rs1) (fieldOperand s rs2) →
      exec (.pdec 0x04#8 rd rs1 rs2) s = .next (errorDone s 7))

/-- R204, R205, R206: tags 0x02 and 0x03, the candidate root `r^((p+1)/4)`, its check when STRICT is 1, the parity. -/
def Obligations.PdecCompressedRecoversTheRoot : Prop :=
  ∀ (tag : BitVec 8) (rd : PReg) (rs1 rs2 : FReg) (s : State) (r y0 : Nat), ¬ Locked s rd → 3 < s.cp.toNat →
    tag = 0x02#8 ∨ tag = 0x03#8 → s.cp.toNat % 4 = 3 →
    (r : Int) = ((fieldOperand s rs1 : Int) ^ 3 + s.ca.toNat * fieldOperand s rs1 + s.cb.toNat) % s.cp.toNat →
    y0 = r ^ ((s.cp.toNat + 1) / 4) % s.cp.toNat →
    (s.ctrlStrict = false ∨ y0 * y0 % s.cp.toNat = r → y0 % 2 = tag.toNat % 2 →
      exec (.pdec tag rd rs1 rs2) s = .next (pointDone s rd (.affine (fieldOperand s rs1) y0))) ∧
    (s.ctrlStrict = false ∨ y0 * y0 % s.cp.toNat = r → y0 % 2 ≠ tag.toNat % 2 →
      exec (.pdec tag rd rs1 rs2) s =
        .next (pointDone s rd (.affine (fieldOperand s rs1) ((s.cp.toNat - y0) % s.cp.toNat)))) ∧
    (s.ctrlStrict = true → y0 * y0 % s.cp.toNat ≠ r → exec (.pdec tag rd rs1 rs2) s = .next (errorDone s 7))

/-- R207, R254, R257, R262: the errors of PDEC in their order, and its encoding (R201). -/
def Obligations.PdecReportsTheFirstError : Prop :=
  ∀ (tag : BitVec 8) (rd : PReg) (rs1 rs2 : FReg) (s : State),
    (Locked s rd → exec (.pdec tag rd rs1 rs2) s = .next (errorDone s 8)) ∧
    (¬ Locked s rd → s.cp.toNat ≤ 3 → exec (.pdec tag rd rs1 rs2) s = .next (errorDone s 2)) ∧
    (¬ Locked s rd → 3 < s.cp.toNat → tag ≠ 0x02#8 → tag ≠ 0x03#8 → tag ≠ 0x04#8 →
      exec (.pdec tag rd rs1 rs2) s = .next (errorDone s 5)) ∧
    (¬ Locked s rd → 3 < s.cp.toNat → tag = 0x02#8 ∨ tag = 0x03#8 → s.cp.toNat % 4 ≠ 3 →
      exec (.pdec tag rd rs1 rs2) s = .next (errorDone s 4)) ∧
    EncodedAs (.pdec tag rd rs1 rs2) (commandWord 0x12 rd rs1 rs2 tag.toNat 0)

/-! ### Encoding -/

/-- R91 to R93, R102: words of the spec and their commands. -/
def Obligations.WorkedEncodingsDecode : Prop :=
  decode 0x00000101#32 = .ok (.norm false 1 0) ∧ decode 0x10000101#32 = .ok (.norm true 1 0) ∧
  decode 0x00010202#32 = .ok (.normw false 2 0 1) ∧ decode 0x00010203#32 = .ok (.madd 2 0 1) ∧
  decode 0x00010204#32 = .ok (.msub 2 0 1) ∧ decode 0x00010205#32 = .ok (.mmul 2 0 1) ∧
  decode 0x00002306#32 = .ok (.minv 3 2) ∧ decode 0x00010407#32 = .ok (.mpow 4 0 1) ∧
  decode 0x00010210#32 = .ok (.padd 2 0 1) ∧ decode 0x00000111#32 = .ok (.smul false 1 0 0) ∧
  decode 0x10000111#32 = .ok (.smul true 1 0 0) ∧ decode 0x00200012#32 = .ok (.pdec 0x02 0 0 0) ∧
  decode 0x00410112#32 = .ok (.pdec 0x04#8 1 0 1)

/-- No operand bit of an encoding is dropped: every command of every operand decodes from its encoding. -/
def Obligations.DecodeOfEncodeIsTheInstruction : Prop := ∀ i : Instr, decode (encode i) = .ok i

/-- Every word that decodes is the encoding of what it decodes to: no two words are one command. -/
def Obligations.EncodeOfDecodeIsTheWord : Prop := ∀ (c : Word32) (i : Instr), decode c = .ok i → encode i = c

/-- R93: a word is a command's legal encoding exactly when `(c and mask) = match` for its row, and for no other row. -/
def Obligations.DecodeAgreesWithMatchAndMask : Prop :=
  ∀ (c : Word32) (r : OpcodeRow), r ∈ opcodeTable →
    (c &&& r.mask = r.matchWord ↔ ∃ i, decode c = .ok i ∧ i.mnemonic = r.mnemonic)

/-- R92 and conditions 1 to 4 of R97, in the fields' own terms. -/
def Obligations.DecodeAcceptsExactlyWellFormedFields : Prop :=
  ∀ c : Word32, (∃ i, decode c = .ok i) ↔ (Fields.ofWord c).wellFormed = true

/-! ### The step -/

/-- R101, R259: when a command is due (the model's scheduling, log 1 and log 9) and its word decodes, the step is the
command's execution. -/
def Obligations.StepRunsTheDecodedCommand : Prop :=
  ∀ (s : State) (i : Instr), CompletesNow s → decode s.cmd = .ok i → step s = exec i s

/-- R97, R101, R255, R256: an illegal word completes with code 8 whatever the modulus; a legal word under `cp <= 3`
completes with code 2. When a command is due is the model's scheduling (log 1, log 9). -/
def Obligations.CommonChecksComeFirst : Prop :=
  ∀ s : State, CompletesNow s →
    (IllegalWord s s.cmd → step s = .next (errorDone s 8)) ∧
    (¬ IllegalWord s s.cmd → s.cp.toNat ≤ 3 → step s = .next (errorDone s 2))

/-- The model's scheduling (log 1, log 9): while no command is due, a step takes the host's next action, or nothing. -/
def Obligations.StepTakesTheHostActionOtherwise : Prop :=
  ∀ s : State, ¬ CompletesNow s →
    (s.host = [] → step s = .next s) ∧
    (∀ a rest, s.host = a :: rest → step s = hostAction a { s with host := rest, wait := s.wait - 1 })

/-- R306 in the model's terms: unless the host resets the block, a running command completes (IDLE with DONE = 1) within
as many steps as its free latency says (log 1), plus one, or sooner when the host falls silent (log 9). -/
def Obligations.RunningCommandCompletes : Prop :=
  ∀ s : State, s.seq = .busy → (∀ a ∈ s.host, a.aligned = true ∧ a ≠ .reset) →
    ∃ k ≤ s.wait + 1, ∃ t, Host.Core.run Sys2Proof.core k s = .next t ∧ t.seq = .idle ∧ t.statusDone = true

/-- Log 3: no state stops, given a host that only makes aligned word accesses, and the step leads to such a state again. -/
def Obligations.SafeStatesNeverStop : Prop :=
  ∀ s : State, s.Safe → ∃ t, step s = .next t ∧ t.Safe

/-- The invariant of Safety.lean at reset, for every legal W (R49, R290). -/
def Obligations.ResetSatisfiesInv : Prop := ∀ cfg : Config, cfg.legal → (State.resetWith cfg).Inv

/-- Every step keeps the invariant: registers fit W bits (R8, R21, R22, R24), the status fields agree (R44, R251), the
reserved bits of ERRLOG read 0 (R46). -/
def Obligations.StepKeepsInv : Prop := ∀ s t : State, s.Inv → step s = .next t → t.Inv

/-- R7 says that W is fixed for one machine; that State carries it and no step changes it is log 2 (DEDUCED), and that
Reset keeps it is log 8 (DESIGN CHOICE). -/
def Obligations.StepKeepsTheParameter : Prop := ∀ s t : State, step s = .next t → t.cfg = s.cfg

/-! ### Completion, errors, frames -/

/-- R27, R259: what a command leaves alone. Every register but its destination, the curve, CTRL, INTEN and CMD are
unchanged, and so is every aligned word of the window outside the destination's slots, STATUS, ERRLOG and PTINF. -/
def Obligations.CommandsChangeOnlyTheirDestination : Prop :=
  ∀ (i : Instr) (s t : State), exec i s = .next t →
    (∀ k, ¬ WritesField i k → t.f.get k = s.f.get k) ∧ (∀ j, ¬ WritesPoint i j → t.pt.get j = s.pt.get j) ∧
    t.ca = s.ca ∧ t.cb = s.cb ∧ t.cp = s.cp ∧ t.cn = s.cn ∧ t.ctrlLock = s.ctrlLock ∧ t.ctrlStrict = s.ctrlStrict ∧
    t.cmd = s.cmd ∧ t.intenDone = s.intenDone ∧ t.intenErr = s.intenErr ∧ t.cfg = s.cfg ∧ t.host = s.host ∧
    t.seen = s.seen ∧
    (∀ n, n % 4 = 0 → n < 0x1000 → n ≠ 0x010 → n ≠ 0x018 → n ≠ 0x01C →
      (∀ k, WritesField i k → n < 0x400 + 0x80 * k.val ∨ 0x480 + 0x80 * k.val ≤ n) →
      (∀ j, WritesPoint i j → n < 0x800 + 0x100 * j.val ∨ 0x900 + 0x100 * j.val ≤ n) →
      winRead t (offset n) = winRead s (offset n))

/-- R259: every command completes, back in IDLE with DONE = 1, and ERRLOG gains exactly the bit of the error. -/
def Obligations.EveryCommandCompletes : Prop :=
  ∀ (i : Instr) (s : State), ∃ t, exec i s = .next t ∧ t.seq = .idle ∧ t.statusDone = true ∧
    (t.statusErr = 0 → t.errlog = s.errlog) ∧ (t.statusErr ≠ 0 → t.errlog = s.errlog ||| (1#32 <<< t.statusErr.toNat))

/-- R258, R263: a command that ends in error has changed nothing but STATUS and ERRLOG (and `seq`). -/
def Obligations.ErrorsArePrecise : Prop :=
  ∀ (i : Instr) (s t : State), exec i s = .next t → t.statusErr ≠ 0 →
    t = { s with statusErr := t.statusErr, errlog := t.errlog, statusDone := true, seq := .idle }

/-- R21, R120, R135: a field command that ends with a result leaves a canonical residue in its destination. -/
def Obligations.FieldResultsAreCanonical : Prop :=
  ∀ (i : Instr) (s t : State) (k : FReg), WritesField i k → exec i s = .next t → t.statusErr = 0 →
    (t.f.get k).toNat < s.cp.toNat

/-- R24: every command gives the same result for `ca` and `ca mod cp`, and for `cb` and `cb mod cp`. -/
def Obligations.CoefficientsEnterModuloP : Prop :=
  ∀ (i : Instr) (s t : State), 3 < s.cp.toNat → exec i s = .next t →
    exec i { s with ca := BitVec.ofNat 1024 (s.ca.toNat % s.cp.toNat), cb := BitVec.ofNat 1024 (s.cb.toNat % s.cp.toNat) } =
      .next { t with ca := BitVec.ofNat 1024 (s.ca.toNat % s.cp.toNat), cb := BitVec.ofNat 1024 (s.cb.toNat % s.cp.toNat) }

/-- R25: no command reads `cn`. -/
def Obligations.NoCommandReadsTheOrder : Prop :=
  ∀ (i : Instr) (s t : State) (n : Word), exec i s = .next t → exec i { s with cn := n } = .next { t with cn := n }

/-! ### Laws of the arithmetic -/

/-- R135: commutativity, `MSUB rd, a, a` is 0, and `MMUL` by a register holding 1 equals `NORM`. -/
def Obligations.FieldCommandLaws : Prop :=
  ∀ (rd x y : FReg) (s : State),
    exec (.madd rd x y) s = exec (.madd rd y x) s ∧ exec (.mmul rd x y) s = exec (.mmul rd y x) s ∧
    (3 < s.cp.toNat → exec (.msub rd x x) s = .next (fieldDone s rd 0)) ∧
    (fieldOperand s y = 1 → exec (.mmul rd x y) s = exec (.norm false rd x) s)

/-- R135: MADD, MSUB, MMUL and MPOW respect congruence: sources with equal residues give the same value or error (the
exponent of MPOW is not a residue and stays as it is). -/
def Obligations.SourcesEnterModuloP : Prop :=
  ∀ (rd x y x' y' : FReg) (s : State), fieldOperand s x % s.cp.toNat = fieldOperand s x' % s.cp.toNat →
    fieldOperand s y % s.cp.toNat = fieldOperand s y' % s.cp.toNat →
    exec (.madd rd x y) s = exec (.madd rd x' y') s ∧ exec (.msub rd x y) s = exec (.msub rd x' y') s ∧
    exec (.mmul rd x y) s = exec (.mmul rd x' y') s ∧ exec (.mpow rd x y) s = exec (.mpow rd x' y) s

/-- R135: `MINV` of a result of `MINV` returns the residue of the original, and `MINV` then `MMUL` with the original
gives 1. -/
def Obligations.MinvLaws : Prop :=
  ∀ (rd x rd2 : FReg) (s : State), rd ≠ x → 3 < s.cp.toNat → Nat.gcd (fieldOperand s x % s.cp.toNat) s.cp.toNat = 1 →
    ∃ t, exec (.minv rd x) s = .next t ∧
      exec (.minv rd2 rd) t = .next (fieldDone t rd2 (fieldOperand s x % s.cp.toNat)) ∧
      exec (.mmul rd2 rd x) t = .next (fieldDone t rd2 1)

/-- R170: `add(curve, A, B) = add(curve, B, A)` for every register content, errors included. -/
def Obligations.PaddIsCommutative : Prop :=
  ∀ (rd rs1 rs2 : PReg) (s : State), exec (.padd rd rs1 rs2) s = exec (.padd rd rs2 rs1) s

/-- R162, R170: the identity law, with equality of Points (R26). -/
def Obligations.PaddIdentityLaw : Prop :=
  ∀ (rd rs1 rs2 : PReg) (s : State), ¬ Locked s rd → 3 < s.cp.toNat →
    (pointOperand s rs1 = .identity →
      exec (.padd rd rs1 rs2) s = .next (pointDone s rd (pointOperand s rs2))) ∧
    (pointOperand s rs2 = .identity →
      exec (.padd rd rs1 rs2) s = .next (pointDone s rd (pointOperand s rs1)))

/-- R187: the identity multiplied, k = 1, and a 2-torsion point doubled. -/
def Obligations.SmulSpecialOperands : Prop :=
  ∀ (rd rs1 : PReg) (rs2 : FReg) (s : State), ¬ Locked s rd → 3 < s.cp.toNat → fieldOperand s rs2 ≠ 0 →
    (pointOperand s rs1 = .identity → exec (.smul false rd rs1 rs2) s = .next (pointDone s rd .identity)) ∧
    (fieldOperand s rs2 = 1 → exec (.smul false rd rs1 rs2) s = .next (pointDone s rd (pointOperand s rs1))) ∧
    (∀ x, pointOperand s rs1 = .affine x 0 → 2 ≤ fieldOperand s rs2 →
      exec (.smul false rd rs1 rs2) s = .next (errorDone s 3))

/-- For a prime p, PADD of nonsingular points of a curve is the group addition of Mathlib's elliptic curve,
but for doubling a point of order 2, where it raises NotInvertible (R164). -/
def Obligations.PaddIsTheCurvesGroupLaw : Prop :=
  ∀ (p a b : Nat) [Fact p.Prime] (rd rs1 rs2 : PReg) (s : State),
    ∀ P Q : (WeierstrassCurve.mk (0 : ZMod p) 0 0 a b).toAffine.Point,
      ¬ Locked s rd → 3 < p → s.cp.toNat = p → s.ca.toNat = a →
      pointOperand s rs1 = (match P with | .zero => .identity | .some x y _ => .affine x.val y.val) →
      pointOperand s rs2 = (match Q with | .zero => .identity | .some x y _ => .affine x.val y.val) →
      (¬ (P = Q ∧ P ≠ 0 ∧ P + Q = 0) → exec (.padd rd rs1 rs2) s = .next
        (pointDone s rd (match P + Q with | .zero => .identity | .some x y _ => .affine x.val y.val))) ∧
      (P = Q → P ≠ 0 → P + Q = 0 → exec (.padd rd rs1 rs2) s = .next (errorDone s 3))

/-- R210: the compressed round trip for prime p = 3 (mod 4), whatever f[rs2] holds, and the uncompressed one. -/
def Obligations.PdecInvertsCompress : Prop :=
  ∀ (rd : PReg) (rs1 rs2 : FReg) (s : State) (tag : BitVec 8) (y : Nat), ¬ Locked s rd → 3 < s.cp.toNat →
    fieldOperand s rs1 < s.cp.toNat → y < s.cp.toNat →
    OnCurve s.cp.toNat s.ca.toNat s.cb.toNat (fieldOperand s rs1) y →
    (s.cp.toNat.Prime → s.cp.toNat % 4 = 3 → tag = (if y % 2 = 0 then 0x02#8 else 0x03#8) →
      exec (.pdec tag rd rs1 rs2) s = .next (pointDone s rd (.affine (fieldOperand s rs1) y))) ∧
    (fieldOperand s rs2 = y →
      exec (.pdec 0x04#8 rd rs1 rs2) s = .next (pointDone s rd (.affine (fieldOperand s rs1) y)))

/-- R203, R205: with STRICT = 1, what PDEC writes satisfies the curve equation. -/
def Obligations.StrictPdecWritesPointsOnTheCurve : Prop :=
  ∀ (tag : BitVec 8) (rd : PReg) (rs1 rs2 : FReg) (s t : State), s.ctrlStrict = true →
    exec (.pdec tag rd rs1 rs2) s = .next t → t.statusErr = 0 →
    (t.pt.get rd).inf = false ∧
      OnCurve s.cp.toNat s.ca.toNat s.cb.toNat (t.pt.get rd).x.toNat (t.pt.get rd).y.toNat

/-! ### The window -/

/-- R61, R62, R64, R67: what an aligned read returns at every slot word and unmapped offset, and that it changes
nothing but the model's own field `seen` (log 3). -/
def Obligations.WindowReadsTheRegisterMap : Prop :=
  ∀ s : State, s.cfg.nw ≤ 32 →
    (∀ m, m < s.cfg.nw →
      winRead s (offset (0x080 + 4 * m)) = wordOf s.ca m ∧ winRead s (offset (0x100 + 4 * m)) = wordOf s.cb m ∧
      winRead s (offset (0x180 + 4 * m)) = wordOf s.cp m ∧ winRead s (offset (0x200 + 4 * m)) = wordOf s.cn m ∧
      (∀ i : FReg, winRead s (offset (0x400 + 0x80 * i + 4 * m)) = wordOf (s.f.get i) m) ∧
      (∀ j : PReg, winRead s (offset (0x800 + 0x100 * j + 4 * m)) = wordOf (s.pt.get j).x m ∧
        winRead s (offset (0x880 + 0x100 * j + 4 * m)) = wordOf (s.pt.get j).y m)) ∧
    (∀ n, n % 4 = 0 → Unmapped s.cfg.nw n → winRead s (offset n) = 0) ∧
    (∀ off : BitVec 12, off.toNat % 4 = 0 →
      hostAction (.winRead off .word) s = .next { s with seen := some (.word (winRead s off)) })

/-- R40 to R47: the control and status words as read, the reserved bits 0; for ERRLOG, which is a stored word, in every
state with the invariant (R46). -/
def Obligations.WindowReadsTheControlRegisters : Prop :=
  ∀ s : State,
    winRead s (offset 0x000) = 0x45434301#32 ∧
    (s.cfg.nw ≤ 32 → (winRead s (offset 0x004)).toNat = s.cfg.nw + 2 ^ 8 * 8 + 2 ^ 12 * 4) ∧
    (winRead s (offset 0x008)).toNat = s.ctrlLock.toNat + 2 * s.ctrlStrict.toNat ∧
    winRead s (offset 0x00C) = s.cmd ∧
    (winRead s (offset 0x010)).toNat =
      (decide (s.seq = .busy)).toNat + 2 * s.statusDone.toNat + 2 ^ 8 * s.statusErr.toNat ∧
    (winRead s (offset 0x014)).toNat = s.intenDone.toNat + 2 * s.intenErr.toNat ∧
    winRead s (offset 0x018) = s.errlog ∧
    (s.Inv → ∀ k : Nat, k = 0 ∨ 11 ≤ k → (winRead s (offset 0x018)).getLsbD k = false) ∧
    (winRead s (offset 0x01C)).toNat = (s.pt.get 0).inf.toNat + 2 * (s.pt.get 1).inf.toNat +
      4 * (s.pt.get 2).inf.toNat + 8 * (s.pt.get 3).inf.toNat

/-- R65, R67: a write to a read-only or unmapped offset has no effect. -/
def Obligations.ReadOnlyAndUnmappedIgnoreWrites : Prop :=
  ∀ (s : State) (n : Nat) (v : Word32), n % 4 = 0 → (n = 0x000 ∨ n = 0x004 ∨ Unmapped s.cfg.nw n) →
    winWrite s (offset n) v = s

/-- R44, R45, R46: writes to STATUS, INTEN and ERRLOG, taken in IDLE and in BUSY. -/
def Obligations.StatusIntenErrlogWrites : Prop :=
  ∀ (s : State) (v : Word32),
    (v.getLsbD 1 = true → winWrite s (offset 0x010) v = { s with statusDone := false, statusErr := 0 }) ∧
    (v.getLsbD 1 = false → winWrite s (offset 0x010) v = s) ∧
    winWrite s (offset 0x014) v = { s with intenDone := v.getLsbD 0, intenErr := v.getLsbD 1 } ∧
    winWrite s (offset 0x018) v = { s with errlog := s.errlog &&& ~~~v }

/-- R69: while BUSY, a write to CTRL, CMD, PTINF or any mapped slot word changes nothing and sets BUSYWR; writes to STATUS,
INTEN and ERRLOG are not gated. -/
def Obligations.BusyGateDropsWrites : Prop :=
  ∀ (s : State) (v : Word32), s.seq = .busy →
    (∀ n, n % 4 = 0 → n < 0x1000 → ¬ Unmapped s.cfg.nw n → n ∉ [0x000, 0x004, 0x010, 0x014, 0x018] →
      winWrite s (offset n) v = { s with errlog := s.errlog ||| (1#32 <<< 9) }) ∧
    winWrite s (offset 0x010) v = (if v.getLsbD 1 then { s with statusDone := false, statusErr := 0 } else s) ∧
    winWrite s (offset 0x014) v = { s with intenDone := v.getLsbD 0, intenErr := v.getLsbD 1 } ∧
    winWrite s (offset 0x018) v = { s with errlog := s.errlog &&& ~~~v }

/-- R101: acceptance of any word in IDLE; `wait` takes the free latency, a function of the state that holds the word
(log 1, the model's choice). -/
def Obligations.CmdWriteAcceptsInIdle : Prop :=
  ∀ (s t : State) (c : Word32), s.seq = .idle →
    t = { s with cmd := c, statusDone := false, statusErr := 0, seq := .busy } →
    winWrite s (offset 0x00C) c = { t with wait := Config.latency t }

/-- R42: a write to CTRL in IDLE; writing 0 to LOCK leaves it. -/
def Obligations.CtrlWriteSetsLockAndStrict : Prop :=
  ∀ (s : State) (v : Word32), s.seq = .idle →
    (v.getLsbD 0 = true → winWrite s (offset 0x008) v = { s with ctrlLock := true, ctrlStrict := v.getLsbD 1 }) ∧
    (v.getLsbD 0 = false → winWrite s (offset 0x008) v = { s with ctrlStrict := v.getLsbD 1 })

/-- R47: a write to PTINF in IDLE, with and without the lock; coordinates are kept. -/
def Obligations.PtinfWriteSetsTheFlags : Prop :=
  ∀ (s : State) (v : Word32), s.seq = .idle → ∃ t, winWrite s (offset 0x01C) v = t ∧
    (∀ j : PReg, (t.pt.get j).x = (s.pt.get j).x ∧ (t.pt.get j).y = (s.pt.get j).y) ∧
    (∀ j : PReg, j ≠ 0 ∨ s.ctrlLock = false → (t.pt.get j).inf = v.getLsbD j) ∧
    (s.ctrlLock = true → (t.pt.get 0).inf = (s.pt.get 0).inf) ∧
    t = { s with pt := t.pt, errlog := t.errlog } ∧
    t.errlog = (if s.ctrlLock = true ∧ v.getLsbD 0 ≠ (s.pt.get 0).inf then s.errlog ||| (1#32 <<< 10) else s.errlog)

/-- R65 (last case), R22: a write in IDLE to a slot that is not locked replaces the word and nothing else. -/
def Obligations.SlotWriteReplacesOneWord : Prop :=
  ∀ (s : State) (m : Nat) (v : Word32), s.seq = .idle → s.cfg.nw ≤ 32 → m < s.cfg.nw →
    (∀ i : FReg, ∃ x, WordReplaced (s.f.get i) x m v ∧
      winWrite s (offset (0x400 + 0x80 * i + 4 * m)) v = { s with f := s.f.set i x }) ∧
    (∀ j : PReg, j ≠ 0 ∨ s.ctrlLock = false →
      (∃ x, WordReplaced (s.pt.get j).x x m v ∧
        winWrite s (offset (0x800 + 0x100 * j + 4 * m)) v = { s with pt := s.pt.set j { s.pt.get j with x := x } }) ∧
      (∃ y, WordReplaced (s.pt.get j).y y m v ∧
        winWrite s (offset (0x880 + 0x100 * j + 4 * m)) v = { s with pt := s.pt.set j { s.pt.get j with y := y } })) ∧
    (s.ctrlLock = false →
      (∃ x, WordReplaced s.ca x m v ∧ winWrite s (offset (0x080 + 4 * m)) v = { s with ca := x }) ∧
      (∃ x, WordReplaced s.cb x m v ∧ winWrite s (offset (0x100 + 4 * m)) v = { s with cb := x }) ∧
      (∃ x, WordReplaced s.cp x m v ∧ winWrite s (offset (0x180 + 4 * m)) v = { s with cp := x }) ∧
      (∃ x, WordReplaced s.cn x m v ∧ winWrite s (offset (0x200 + 4 * m)) v = { s with cn := x }))

/-- R70: under the lock, a write in IDLE to a word of ca, cb, cp, cn, pt[0].x or pt[0].y changes nothing and sets LOCKWR. -/
def Obligations.LockGateDropsWrites : Prop :=
  ∀ (s : State) (n : Nat) (v : Word32), s.seq = .idle → s.ctrlLock = true → n % 4 = 0 → n % 128 / 4 < s.cfg.nw →
    (0x080 ≤ n ∧ n < 0x280) ∨ (0x800 ≤ n ∧ n < 0x900) →
    winWrite s (offset n) v = { s with errlog := s.errlog ||| (1#32 <<< 10) }

/-- R66: an access that is not one aligned 32-bit word is refused, read or write. The names of the refusals, and that
`notWordAccess` is the one given where both apply, are the model's choice (log 3, DESIGN CHOICE). -/
def Obligations.OnlyAlignedWordAccessesAreTaken : Prop :=
  ∀ (s : State) (off : BitVec 12) (width : AccessWidth) (v : Word32),
    (width ≠ .word → hostAction (.winRead off width) s = .refused .notWordAccess ∧
      hostAction (.winWrite off width v) s = .refused .notWordAccess) ∧
    (off.toNat % 4 ≠ 0 → hostAction (.winRead off .word) s = .refused .misalignedAccess ∧
      hostAction (.winWrite off .word v) s = .refused .misalignedAccess) ∧
    (off.toNat % 4 = 0 → hostAction (.winWrite off .word v) s = .next (winWrite s off v))

/-- R63: on a byte-addressed bus, every W-bit register read as a byte string from its slot's first byte is little-endian.
The byte that such a bus shows is the model's `busByte` (log 17, DEDUCED); the block itself has no byte access. -/
def Obligations.SlotBytesAreLittleEndian : Prop :=
  ∀ (s : State) (b : Nat), s.cfg.nw ≤ 32 → b < 4 * s.cfg.nw →
    (busByte s (offset (0x080 + b))).toNat = s.ca.toNat / 2 ^ (8 * b) % 256 ∧
    (busByte s (offset (0x100 + b))).toNat = s.cb.toNat / 2 ^ (8 * b) % 256 ∧
    (busByte s (offset (0x180 + b))).toNat = s.cp.toNat / 2 ^ (8 * b) % 256 ∧
    (busByte s (offset (0x200 + b))).toNat = s.cn.toNat / 2 ^ (8 * b) % 256 ∧
    (∀ i : FReg, (busByte s (offset (0x400 + 0x80 * i + b))).toNat = (s.f.get i).toNat / 2 ^ (8 * b) % 256) ∧
    (∀ j : PReg, (busByte s (offset (0x800 + 0x100 * j + b))).toNat = (s.pt.get j).x.toNat / 2 ^ (8 * b) % 256 ∧
      (busByte s (offset (0x880 + 0x100 * j + b))).toNat = (s.pt.get j).y.toNat / 2 ^ (8 * b) % 256)

/-- R23, R42, R70: once LOCK is 1, no step but a Reset changes the curve, G, or LOCK itself. A completion step is taken
before the host's next action, so it is covered whatever that action is (log 1). -/
def Obligations.LockFreezesTheCurve : Prop :=
  ∀ s t : State, s.ctrlLock = true → s.host.head? ≠ some .reset ∨ CompletesNow s → step s = .next t →
    t.ctrlLock = true ∧ t.ca = s.ca ∧ t.cb = s.cb ∧ t.cp = s.cp ∧ t.cn = s.cn ∧ t.pt.get 0 = s.pt.get 0

/-- R14, R69: between acceptance and completion no host action but Reset can change the outcome of the command. -/
def Obligations.HostCannotDisturbARunningCommand : Prop :=
  ∀ (i : Instr) (a : HostAction) (s t u v : State), s.seq = .busy → a ≠ .reset → hostAction a s = .next t →
    exec i s = .next u → exec i t = .next v →
    t.seq = .busy ∧ t.cmd = s.cmd ∧ v.f = u.f ∧ v.pt = u.pt ∧ v.statusErr = u.statusErr ∧ v.statusDone = u.statusDone

/-! ### Interrupt, reset, host side -/

/-- R266, R267: the level, and what makes it fall. -/
def Obligations.IrqFollowsStatusAndEnables : Prop :=
  ∀ s : State,
    (irq s = true ↔ (s.intenDone = true ∧ s.statusDone = true) ∨ (s.intenErr = true ∧ s.statusErr ≠ 0)) ∧
    (∀ v : Word32, v.getLsbD 1 = true → irq (winWrite s (offset 0x010) v) = false) ∧
    (∀ v : Word32, v.getLsbD 0 = false → v.getLsbD 1 = false → irq (winWrite s (offset 0x014) v) = false) ∧
    (s.seq = .idle → ∀ c, irq (winWrite s (offset 0x00C) c) = false) ∧
    (∀ t, hostAction .reset s = .next t → irq t = false)

/-- R49, R290, R291: Reset gives every register its reset value, in IDLE and in BUSY. The last clause, that Reset keeps W,
is the model's choice (log 8, DESIGN CHOICE). -/
def Obligations.ResetClearsEverything : Prop :=
  ∀ s : State, ∃ t, hostAction .reset s = .next t ∧
    (∀ i : FReg, t.f.get i = 0) ∧ (∀ j : PReg, t.pt.get j = { inf := false, x := 0, y := 0 }) ∧
    t.ca = 0 ∧ t.cb = 0 ∧ t.cp = 0 ∧ t.cn = 0 ∧ t.ctrlLock = false ∧ t.ctrlStrict = true ∧ t.cmd = 0 ∧
    t.statusDone = false ∧ t.statusErr = 0 ∧ t.intenDone = false ∧ t.intenErr = false ∧ t.errlog = 0 ∧
    t.seq = .idle ∧ irq t = false ∧ t.cfg = s.cfg

/-- R222, R223 (vector SV-10): `decodeHex(encodeHex(v, w)) = v`, and the width is at least w. -/
def Obligations.HexCodecRoundTrip : Prop :=
  ∀ v w : Nat, decodeHex (encodeHex v w) = .ok v ∧ w ≤ (encodeHex v w).length

/-- R100, R8: SET loads a whole register and GET reads it back; a wider value is refused before the window is touched. -/
def Obligations.SetLoadsAWholeRegister : Prop :=
  ∀ (s : State) (i : FReg) (v : Nat), s.seq = .idle → s.cfg.legal → (s.f.get i).toNat < 2 ^ s.cfg.W →
    (v < 2 ^ s.cfg.W → ∃ t, runSet (.field i) v s = .done () t ∧
      t = { s with f := s.f.set i (BitVec.ofNat 1024 v) } ∧ runGet (.field i) t = v) ∧
    (2 ^ s.cfg.W ≤ v → runSet (.field i) v s = .failed .valueTooWide s)

/-- R221: RUN executes the command and reports its error code; the accepted state's own field `wait` is the free latency
(log 1), and the poll loop is one completion step (log 12). -/
def Obligations.RunExecutesTheCommand : Prop :=
  ∀ (i : Instr) (s u t : State), s.seq = .idle →
    u = { s with cmd := encode i, statusDone := false, statusErr := 0, seq := .busy } →
    exec i { u with wait := Config.latency u } = .next t →
    (t.statusErr = 0 → runCommand (encode i) s = .done () t) ∧
    (t.statusErr ≠ 0 → runCommand (encode i) s = .failed (.code t.statusErr.toNat) t)
end

