-- ==== Sys2Proof/Laws/Arith.lean ====
section
/-! SUPPORT. One spec lemma per arithmetic function: `normalize`, `euclid`, `modInverse`, `bitlen`, `modPow`. -/

namespace Sys2Proof.Machine

/-- `normalize` is the residue, as an integer (rule R122). -/
theorem normalize_cast (v : Int) {p : Nat} (hp : 0 < p) : (normalize v p : Int) = v % (p : Int) :=
  Int.toNat_of_nonneg (Int.emod_nonneg v (by exact_mod_cast hp.ne'))

/-- A residue is canonical (rule R122). -/
theorem normalize_lt (v : Int) {p : Nat} (hp : 0 < p) : normalize v p < p := by
  have h := Int.emod_lt_of_pos v (by exact_mod_cast hp : (0 : Int) < p)
  have := normalize_cast v hp
  omega

/-- Congruent integers, and only they, have the same residue. -/
theorem normalize_eq_iff {u v : Int} {p : Nat} (hp : 0 < p) : normalize u p = normalize v p ↔ u ≡ v [ZMOD p] := by
  rw [Int.ModEq, ← normalize_cast u hp, ← normalize_cast v hp, Int.natCast_inj]

/-- The residue is congruent to the integer (rule R122). -/
theorem normalize_modEq (v : Int) {p : Nat} (hp : 0 < p) : (normalize v p : Int) ≡ v [ZMOD p] := by
  rw [normalize_cast v hp]; exact Int.mod_modEq v p

/-- On a natural number `normalize` is the remainder (rule R122). -/
@[simp] theorem normalize_natCast (v p : Nat) : normalize (v : Int) p = v % p := by
  rw [normalize, ← Int.natCast_mod, Int.toNat_natCast]

/-- `normalize` is the unique canonical residue (rule R122). -/
theorem normalize_unique {v : Int} {p r : Nat} (hr : r < p) (h : (r : Int) ≡ v [ZMOD p]) : normalize v p = r := by
  have hp : 0 < p := by omega
  rw [← (normalize_eq_iff hp).2 h, normalize_natCast, Nat.mod_eq_of_lt hr]

/-- The Euclidean loop answers the gcd, and its coefficient times `v` is that gcd modulo `p` (rule R133). -/
theorem euclid_spec (p v : Nat) : ∀ (fuel r0 r1 : Nat) (t0 t1 : Int), r1 ≤ fuel →
    t0 * v ≡ r0 [ZMOD p] → t1 * v ≡ r1 [ZMOD p] →
    (euclid fuel r0 r1 t0 t1).1 = Nat.gcd r0 r1 ∧
      (euclid fuel r0 r1 t0 t1).2 * v ≡ (Nat.gcd r0 r1 : Int) [ZMOD p] := by
  intro fuel
  induction fuel with
  | zero =>
    intro r0 r1 t0 t1 hf h0 _
    obtain rfl : r1 = 0 := by omega
    simpa [euclid] using h0
  | succ fuel ih =>
    intro r0 r1 t0 t1 hf h0 h1
    by_cases hr : r1 = 0
    · subst hr; simpa [euclid] using h0
    · have hlt : r0 % r1 < r1 := Nat.mod_lt _ (Nat.pos_of_ne_zero hr)
      have hdiv : ((r0 % r1 : Nat) : Int) = r0 - ((r0 / r1 : Nat) : Int) * r1 := by
        have h : ((r1 * (r0 / r1) + r0 % r1 : Nat) : Int) = r0 := by rw [Nat.div_add_mod]
        rw [Nat.cast_add, Nat.cast_mul] at h
        linarith
      have hstep : (t0 - ((r0 / r1 : Nat) : Int) * t1) * v ≡ ((r0 % r1 : Nat) : Int) [ZMOD p] := by
        rw [hdiv, sub_mul, mul_assoc]
        exact h0.sub (h1.mul_left _)
      have hg : Nat.gcd r0 r1 = Nat.gcd r1 (r0 % r1) := by rw [Nat.gcd_comm, Nat.gcd_rec, Nat.gcd_comm]
      simp only [euclid, if_neg hr, hg]
      exact ih r1 (r0 % r1) t1 _ (by omega) h1 hstep

/-- The Euclidean loop as `modInverse` starts it (rule R133). -/
theorem euclid_start (v : Nat) {p : Nat} (hp : 0 < p) :
    (euclid p p (v % p) 0 1).1 = Nat.gcd (v % p) p ∧
      (euclid p p (v % p) 0 1).2 * v ≡ (Nat.gcd (v % p) p : Int) [ZMOD p] := by
  rw [Nat.gcd_comm]
  exact euclid_spec p v p p (v % p) 0 1 (Nat.mod_lt v hp).le (by simp [Int.ModEq]) (by simp [Int.ModEq])

/-- A product with residue 1 makes the first factor a unit modulo p. -/
theorem gcd_eq_one_of_mul_mod {v u p : Nat} (h : v * u % p = 1) : Nat.gcd (v % p) p = 1 := by
  have hc : Nat.Coprime (v * u) p := by rw [Nat.Coprime, Nat.gcd_comm, Nat.gcd_rec, h, Nat.gcd_one_left]
  have hv : Nat.Coprime v p := hc.coprime_mul_right
  rwa [← Nat.gcd_rec, Nat.gcd_comm]

/-- Inverses modulo p are unique (rule R128). -/
theorem inverse_unique {v u w p : Nat} (hu : u < p) (hw : w < p) (h1 : v * u % p = 1) (h2 : v * w % p = 1) :
    u = w := by
  have hv : Nat.gcd p v = 1 := by rw [Nat.gcd_rec]; exact gcd_eq_one_of_mul_mod h1
  have h : v * u ≡ v * w [MOD p] := h1.trans h2.symm
  have := Nat.ModEq.cancel_left_of_coprime hv h
  rwa [Nat.ModEq, Nat.mod_eq_of_lt hu, Nat.mod_eq_of_lt hw] at this

/-- `modInverse` succeeds when the gcd is 1, with the inverse (rule R128). -/
theorem modInverse_of_gcd {v p : Nat} (hp : 1 < p) (h : Nat.gcd (v % p) p = 1) :
    ∃ u, modInverse v p = .ok u ∧ u < p ∧ v * u % p = 1 := by
  obtain ⟨h1, h2⟩ := euclid_start v (by omega : 0 < p)
  refine ⟨normalize (euclid p p (v % p) 0 1).2 p, ?_, normalize_lt _ (by omega), ?_⟩
  · simp [modInverse, h1, h]
  · rw [h] at h2
    have h3 : ((v * normalize (euclid p p (v % p) 0 1).2 p : Nat) : Int) ≡ (1 : Nat) [ZMOD p] := by
      rw [Nat.cast_mul, mul_comm]
      exact ((normalize_modEq _ (by omega)).mul_right _).trans (by exact_mod_cast h2)
    have := (Int.natCast_modEq_iff.1 h3)
    rwa [Nat.ModEq, Nat.mod_eq_of_lt hp] at this

/-- `modInverse` raises NotInvertible when the gcd is not 1 (rule R128). -/
theorem modInverse_of_gcd_ne {v p : Nat} (hp : 1 < p) (h : Nat.gcd (v % p) p ≠ 1) :
    modInverse v p = .error .notInvertible := by
  simp [modInverse, (euclid_start v (by omega : 0 < p)).1, h]

/-- `modInverse` answers `u` exactly when `u` is the inverse (rule R128). -/
theorem modInverse_eq_ok {v p u : Nat} (hp : 1 < p) : modInverse v p = .ok u ↔ u < p ∧ v * u % p = 1 := by
  constructor
  · intro h
    by_cases hg : Nat.gcd (v % p) p = 1
    · obtain ⟨w, hw, hlt, hm⟩ := modInverse_of_gcd hp hg
      cases h.symm.trans hw
      exact ⟨hlt, hm⟩
    · rw [modInverse_of_gcd_ne hp hg] at h; cases h
  · rintro ⟨hlt, hm⟩
    obtain ⟨w, hw, hlt', hm'⟩ := modInverse_of_gcd hp (gcd_eq_one_of_mul_mod hm)
    rw [hw, inverse_unique hlt hlt' hm hm']

/-- `modInverse` raises only NotInvertible, exactly when the gcd is not 1 (rule R128). -/
theorem modInverse_eq_error {v p : Nat} {e : ErrKind} (hp : 1 < p) :
    modInverse v p = .error e ↔ e = .notInvertible ∧ Nat.gcd (v % p) p ≠ 1 := by
  by_cases hg : Nat.gcd (v % p) p = 1
  · obtain ⟨w, hw, -, -⟩ := modInverse_of_gcd hp hg
    simp [hw, hg]
  · simp [modInverse_of_gcd_ne hp hg, hg, eq_comm]

/-- `bitlen` bounds the number (rule R10). -/
theorem lt_two_pow_bitlen (k : Nat) : k < 2 ^ bitlen k := by
  unfold bitlen
  split
  · omega
  · exact Nat.lt_log2_self

/-- The top bit counted by `bitlen` is set (rules R10, R183). -/
theorem two_pow_bitlen_le {k : Nat} (h : k ≠ 0) : 2 ^ (bitlen k - 1) ≤ k := by
  simpa [bitlen, h] using Nat.log2_self_le h

theorem bitlen_pos (k : Nat) : 0 < bitlen k := by unfold bitlen; split <;> omega

/-- The quotient by a power of two, one bit at a time. -/
theorem div_two_pow_succ (k i : Nat) : k / 2 ^ i = 2 * (k / 2 ^ (i + 1)) + (if k.testBit i then 1 else 0) := by
  have h : k / 2 ^ (i + 1) = k / 2 ^ i / 2 := by rw [pow_succ, Nat.div_div_eq_div_mul]
  rw [h]
  have hb : (k.testBit i) = decide (k / 2 ^ i % 2 = 1) := by
    rw [Nat.testBit_eq_decide_div_mod_eq]
  rw [hb]
  split <;> simp_all <;> omega

/-- The squaring loop finishes the power that its accumulator has begun (rule R134). -/
theorem powLoop_spec (base exp p : Nat) : ∀ (i r : Nat), r = base ^ (exp / 2 ^ i) % p →
    powLoop base exp p i r = base ^ exp % p := by
  intro i
  induction i with
  | zero => intro r hr; simpa [powLoop] using hr
  | succ i ih =>
    intro r hr
    apply ih
    rw [div_two_pow_succ exp i, hr]
    generalize exp / 2 ^ (i + 1) = q
    split
    · rw [pow_succ, two_mul, pow_add]
      generalize base ^ q = c
      rw [← Nat.mul_mod, Nat.mod_mul_mod]
    · rw [add_zero, two_mul, pow_add, ← Nat.mul_mod]

/-- `modPow` is the power modulo p (rule R130). -/
theorem modPow_eq (base exp : Nat) {p : Nat} (hp : 1 < p) : modPow base exp p = base ^ exp % p := by
  apply powLoop_spec
  rw [Nat.div_eq_of_lt (lt_two_pow_bitlen exp), pow_zero, Nat.mod_eq_of_lt hp]

end Sys2Proof.Machine
end

