-- ==== Sys2Proof/Laws/State.lean ====
section
/-! SUPPORT. One lemma per field per named update of the state, each true by rfl. -/

namespace Sys2Proof.Machine

variable (s : State)

@[simp] theorem setField_cfg (i : FReg) (v : Word) : (s.setField i v).cfg = s.cfg := rfl
@[simp] theorem setField_f (i : FReg) (v : Word) : (s.setField i v).f = s.f.set i v := rfl
@[simp] theorem setField_pt (i : FReg) (v : Word) : (s.setField i v).pt = s.pt := rfl
@[simp] theorem setField_ca (i : FReg) (v : Word) : (s.setField i v).ca = s.ca := rfl
@[simp] theorem setField_cb (i : FReg) (v : Word) : (s.setField i v).cb = s.cb := rfl
@[simp] theorem setField_cp (i : FReg) (v : Word) : (s.setField i v).cp = s.cp := rfl
@[simp] theorem setField_cn (i : FReg) (v : Word) : (s.setField i v).cn = s.cn := rfl
@[simp] theorem setField_ctrlLock (i : FReg) (v : Word) : (s.setField i v).ctrlLock = s.ctrlLock := rfl
@[simp] theorem setField_ctrlStrict (i : FReg) (v : Word) : (s.setField i v).ctrlStrict = s.ctrlStrict := rfl
@[simp] theorem setField_cmd (i : FReg) (v : Word) : (s.setField i v).cmd = s.cmd := rfl
@[simp] theorem setField_statusDone (i : FReg) (v : Word) : (s.setField i v).statusDone = s.statusDone := rfl
@[simp] theorem setField_statusErr (i : FReg) (v : Word) : (s.setField i v).statusErr = s.statusErr := rfl
@[simp] theorem setField_intenDone (i : FReg) (v : Word) : (s.setField i v).intenDone = s.intenDone := rfl
@[simp] theorem setField_intenErr (i : FReg) (v : Word) : (s.setField i v).intenErr = s.intenErr := rfl
@[simp] theorem setField_errlog (i : FReg) (v : Word) : (s.setField i v).errlog = s.errlog := rfl
@[simp] theorem setField_seq (i : FReg) (v : Word) : (s.setField i v).seq = s.seq := rfl
@[simp] theorem setField_host (i : FReg) (v : Word) : (s.setField i v).host = s.host := rfl
@[simp] theorem setField_seen (i : FReg) (v : Word) : (s.setField i v).seen = s.seen := rfl
@[simp] theorem setField_wait (i : FReg) (v : Word) : (s.setField i v).wait = s.wait := rfl

@[simp] theorem setPoint_cfg (j : PReg) (r : PointReg) : (s.setPoint j r).cfg = s.cfg := rfl
@[simp] theorem setPoint_f (j : PReg) (r : PointReg) : (s.setPoint j r).f = s.f := rfl
@[simp] theorem setPoint_pt (j : PReg) (r : PointReg) : (s.setPoint j r).pt = s.pt.set j r := rfl
@[simp] theorem setPoint_ca (j : PReg) (r : PointReg) : (s.setPoint j r).ca = s.ca := rfl
@[simp] theorem setPoint_cb (j : PReg) (r : PointReg) : (s.setPoint j r).cb = s.cb := rfl
@[simp] theorem setPoint_cp (j : PReg) (r : PointReg) : (s.setPoint j r).cp = s.cp := rfl
@[simp] theorem setPoint_cn (j : PReg) (r : PointReg) : (s.setPoint j r).cn = s.cn := rfl
@[simp] theorem setPoint_ctrlLock (j : PReg) (r : PointReg) : (s.setPoint j r).ctrlLock = s.ctrlLock := rfl
@[simp] theorem setPoint_ctrlStrict (j : PReg) (r : PointReg) : (s.setPoint j r).ctrlStrict = s.ctrlStrict := rfl
@[simp] theorem setPoint_cmd (j : PReg) (r : PointReg) : (s.setPoint j r).cmd = s.cmd := rfl
@[simp] theorem setPoint_statusDone (j : PReg) (r : PointReg) : (s.setPoint j r).statusDone = s.statusDone := rfl
@[simp] theorem setPoint_statusErr (j : PReg) (r : PointReg) : (s.setPoint j r).statusErr = s.statusErr := rfl
@[simp] theorem setPoint_intenDone (j : PReg) (r : PointReg) : (s.setPoint j r).intenDone = s.intenDone := rfl
@[simp] theorem setPoint_intenErr (j : PReg) (r : PointReg) : (s.setPoint j r).intenErr = s.intenErr := rfl
@[simp] theorem setPoint_errlog (j : PReg) (r : PointReg) : (s.setPoint j r).errlog = s.errlog := rfl
@[simp] theorem setPoint_seq (j : PReg) (r : PointReg) : (s.setPoint j r).seq = s.seq := rfl
@[simp] theorem setPoint_host (j : PReg) (r : PointReg) : (s.setPoint j r).host = s.host := rfl
@[simp] theorem setPoint_seen (j : PReg) (r : PointReg) : (s.setPoint j r).seen = s.seen := rfl
@[simp] theorem setPoint_wait (j : PReg) (r : PointReg) : (s.setPoint j r).wait = s.wait := rfl

@[simp] theorem logSet_cfg (n : Nat) : (s.logSet n).cfg = s.cfg := rfl
@[simp] theorem logSet_f (n : Nat) : (s.logSet n).f = s.f := rfl
@[simp] theorem logSet_pt (n : Nat) : (s.logSet n).pt = s.pt := rfl
@[simp] theorem logSet_ca (n : Nat) : (s.logSet n).ca = s.ca := rfl
@[simp] theorem logSet_cb (n : Nat) : (s.logSet n).cb = s.cb := rfl
@[simp] theorem logSet_cp (n : Nat) : (s.logSet n).cp = s.cp := rfl
@[simp] theorem logSet_cn (n : Nat) : (s.logSet n).cn = s.cn := rfl
@[simp] theorem logSet_ctrlLock (n : Nat) : (s.logSet n).ctrlLock = s.ctrlLock := rfl
@[simp] theorem logSet_ctrlStrict (n : Nat) : (s.logSet n).ctrlStrict = s.ctrlStrict := rfl
@[simp] theorem logSet_cmd (n : Nat) : (s.logSet n).cmd = s.cmd := rfl
@[simp] theorem logSet_statusDone (n : Nat) : (s.logSet n).statusDone = s.statusDone := rfl
@[simp] theorem logSet_statusErr (n : Nat) : (s.logSet n).statusErr = s.statusErr := rfl
@[simp] theorem logSet_intenDone (n : Nat) : (s.logSet n).intenDone = s.intenDone := rfl
@[simp] theorem logSet_intenErr (n : Nat) : (s.logSet n).intenErr = s.intenErr := rfl
@[simp] theorem logSet_errlog (n : Nat) : (s.logSet n).errlog = s.errlog ||| logBit n := rfl
@[simp] theorem logSet_seq (n : Nat) : (s.logSet n).seq = s.seq := rfl
@[simp] theorem logSet_host (n : Nat) : (s.logSet n).host = s.host := rfl
@[simp] theorem logSet_seen (n : Nat) : (s.logSet n).seen = s.seen := rfl
@[simp] theorem logSet_wait (n : Nat) : (s.logSet n).wait = s.wait := rfl

@[simp] theorem finish_cfg (c : Nat) : (s.finish c).cfg = s.cfg := rfl
@[simp] theorem finish_f (c : Nat) : (s.finish c).f = s.f := rfl
@[simp] theorem finish_pt (c : Nat) : (s.finish c).pt = s.pt := rfl
@[simp] theorem finish_ca (c : Nat) : (s.finish c).ca = s.ca := rfl
@[simp] theorem finish_cb (c : Nat) : (s.finish c).cb = s.cb := rfl
@[simp] theorem finish_cp (c : Nat) : (s.finish c).cp = s.cp := rfl
@[simp] theorem finish_cn (c : Nat) : (s.finish c).cn = s.cn := rfl
@[simp] theorem finish_ctrlLock (c : Nat) : (s.finish c).ctrlLock = s.ctrlLock := rfl
@[simp] theorem finish_ctrlStrict (c : Nat) : (s.finish c).ctrlStrict = s.ctrlStrict := rfl
@[simp] theorem finish_cmd (c : Nat) : (s.finish c).cmd = s.cmd := rfl
@[simp] theorem finish_statusDone (c : Nat) : (s.finish c).statusDone = true := rfl
@[simp] theorem finish_statusErr (c : Nat) : (s.finish c).statusErr = BitVec.ofNat 8 c := rfl
@[simp] theorem finish_intenDone (c : Nat) : (s.finish c).intenDone = s.intenDone := rfl
@[simp] theorem finish_intenErr (c : Nat) : (s.finish c).intenErr = s.intenErr := rfl
@[simp] theorem finish_errlog (c : Nat) : (s.finish c).errlog = s.errlog := rfl
@[simp] theorem finish_seq (c : Nat) : (s.finish c).seq = .idle := rfl
@[simp] theorem finish_host (c : Nat) : (s.finish c).host = s.host := rfl
@[simp] theorem finish_seen (c : Nat) : (s.finish c).seen = s.seen := rfl
@[simp] theorem finish_wait (c : Nat) : (s.finish c).wait = s.wait := rfl

@[simp] theorem acknowledge_cfg : (acknowledge s).cfg = s.cfg := rfl
@[simp] theorem acknowledge_f : (acknowledge s).f = s.f := rfl
@[simp] theorem acknowledge_pt : (acknowledge s).pt = s.pt := rfl
@[simp] theorem acknowledge_ca : (acknowledge s).ca = s.ca := rfl
@[simp] theorem acknowledge_cb : (acknowledge s).cb = s.cb := rfl
@[simp] theorem acknowledge_cp : (acknowledge s).cp = s.cp := rfl
@[simp] theorem acknowledge_cn : (acknowledge s).cn = s.cn := rfl
@[simp] theorem acknowledge_ctrlLock : (acknowledge s).ctrlLock = s.ctrlLock := rfl
@[simp] theorem acknowledge_ctrlStrict : (acknowledge s).ctrlStrict = s.ctrlStrict := rfl
@[simp] theorem acknowledge_cmd : (acknowledge s).cmd = s.cmd := rfl
@[simp] theorem acknowledge_statusDone : (acknowledge s).statusDone = false := rfl
@[simp] theorem acknowledge_statusErr : (acknowledge s).statusErr = 0 := rfl
@[simp] theorem acknowledge_intenDone : (acknowledge s).intenDone = s.intenDone := rfl
@[simp] theorem acknowledge_intenErr : (acknowledge s).intenErr = s.intenErr := rfl
@[simp] theorem acknowledge_errlog : (acknowledge s).errlog = s.errlog := rfl
@[simp] theorem acknowledge_seq : (acknowledge s).seq = s.seq := rfl
@[simp] theorem acknowledge_host : (acknowledge s).host = s.host := rfl
@[simp] theorem acknowledge_seen : (acknowledge s).seen = s.seen := rfl
@[simp] theorem acknowledge_wait : (acknowledge s).wait = s.wait := rfl

@[simp] theorem latchCommand_cfg (c : Word32) : (latchCommand s c).cfg = s.cfg := rfl
@[simp] theorem latchCommand_f (c : Word32) : (latchCommand s c).f = s.f := rfl
@[simp] theorem latchCommand_pt (c : Word32) : (latchCommand s c).pt = s.pt := rfl
@[simp] theorem latchCommand_ca (c : Word32) : (latchCommand s c).ca = s.ca := rfl
@[simp] theorem latchCommand_cb (c : Word32) : (latchCommand s c).cb = s.cb := rfl
@[simp] theorem latchCommand_cp (c : Word32) : (latchCommand s c).cp = s.cp := rfl
@[simp] theorem latchCommand_cn (c : Word32) : (latchCommand s c).cn = s.cn := rfl
@[simp] theorem latchCommand_ctrlLock (c : Word32) : (latchCommand s c).ctrlLock = s.ctrlLock := rfl
@[simp] theorem latchCommand_ctrlStrict (c : Word32) : (latchCommand s c).ctrlStrict = s.ctrlStrict := rfl
@[simp] theorem latchCommand_cmd (c : Word32) : (latchCommand s c).cmd = c := rfl
@[simp] theorem latchCommand_statusDone (c : Word32) : (latchCommand s c).statusDone = false := rfl
@[simp] theorem latchCommand_statusErr (c : Word32) : (latchCommand s c).statusErr = 0 := rfl
@[simp] theorem latchCommand_intenDone (c : Word32) : (latchCommand s c).intenDone = s.intenDone := rfl
@[simp] theorem latchCommand_intenErr (c : Word32) : (latchCommand s c).intenErr = s.intenErr := rfl
@[simp] theorem latchCommand_errlog (c : Word32) : (latchCommand s c).errlog = s.errlog := rfl
@[simp] theorem latchCommand_seq (c : Word32) : (latchCommand s c).seq = .busy := rfl
@[simp] theorem latchCommand_host (c : Word32) : (latchCommand s c).host = s.host := rfl
@[simp] theorem latchCommand_seen (c : Word32) : (latchCommand s c).seen = s.seen := rfl
@[simp] theorem latchCommand_wait (c : Word32) : (latchCommand s c).wait = s.wait := rfl

@[simp] theorem acceptCommand_cfg (c : Word32) : (acceptCommand s c).cfg = s.cfg := rfl
@[simp] theorem acceptCommand_f (c : Word32) : (acceptCommand s c).f = s.f := rfl
@[simp] theorem acceptCommand_pt (c : Word32) : (acceptCommand s c).pt = s.pt := rfl
@[simp] theorem acceptCommand_ca (c : Word32) : (acceptCommand s c).ca = s.ca := rfl
@[simp] theorem acceptCommand_cb (c : Word32) : (acceptCommand s c).cb = s.cb := rfl
@[simp] theorem acceptCommand_cp (c : Word32) : (acceptCommand s c).cp = s.cp := rfl
@[simp] theorem acceptCommand_cn (c : Word32) : (acceptCommand s c).cn = s.cn := rfl
@[simp] theorem acceptCommand_ctrlLock (c : Word32) : (acceptCommand s c).ctrlLock = s.ctrlLock := rfl
@[simp] theorem acceptCommand_ctrlStrict (c : Word32) : (acceptCommand s c).ctrlStrict = s.ctrlStrict := rfl
@[simp] theorem acceptCommand_cmd (c : Word32) : (acceptCommand s c).cmd = c := rfl
@[simp] theorem acceptCommand_statusDone (c : Word32) : (acceptCommand s c).statusDone = false := rfl
@[simp] theorem acceptCommand_statusErr (c : Word32) : (acceptCommand s c).statusErr = 0 := rfl
@[simp] theorem acceptCommand_intenDone (c : Word32) : (acceptCommand s c).intenDone = s.intenDone := rfl
@[simp] theorem acceptCommand_intenErr (c : Word32) : (acceptCommand s c).intenErr = s.intenErr := rfl
@[simp] theorem acceptCommand_errlog (c : Word32) : (acceptCommand s c).errlog = s.errlog := rfl
@[simp] theorem acceptCommand_seq (c : Word32) : (acceptCommand s c).seq = .busy := rfl
@[simp] theorem acceptCommand_host (c : Word32) : (acceptCommand s c).host = s.host := rfl
@[simp] theorem acceptCommand_seen (c : Word32) : (acceptCommand s c).seen = s.seen := rfl
@[simp] theorem acceptCommand_wait (c : Word32) : (acceptCommand s c).wait = Config.latency (latchCommand s c) := rfl

@[simp] theorem writeCtrl_cfg (v : Word32) : (writeCtrl s v).cfg = s.cfg := rfl
@[simp] theorem writeCtrl_f (v : Word32) : (writeCtrl s v).f = s.f := rfl
@[simp] theorem writeCtrl_pt (v : Word32) : (writeCtrl s v).pt = s.pt := rfl
@[simp] theorem writeCtrl_ca (v : Word32) : (writeCtrl s v).ca = s.ca := rfl
@[simp] theorem writeCtrl_cb (v : Word32) : (writeCtrl s v).cb = s.cb := rfl
@[simp] theorem writeCtrl_cp (v : Word32) : (writeCtrl s v).cp = s.cp := rfl
@[simp] theorem writeCtrl_cn (v : Word32) : (writeCtrl s v).cn = s.cn := rfl
@[simp] theorem writeCtrl_ctrlLock (v : Word32) : (writeCtrl s v).ctrlLock = (s.ctrlLock || v.getLsbD 0) := rfl
@[simp] theorem writeCtrl_ctrlStrict (v : Word32) : (writeCtrl s v).ctrlStrict = v.getLsbD 1 := rfl
@[simp] theorem writeCtrl_cmd (v : Word32) : (writeCtrl s v).cmd = s.cmd := rfl
@[simp] theorem writeCtrl_statusDone (v : Word32) : (writeCtrl s v).statusDone = s.statusDone := rfl
@[simp] theorem writeCtrl_statusErr (v : Word32) : (writeCtrl s v).statusErr = s.statusErr := rfl
@[simp] theorem writeCtrl_intenDone (v : Word32) : (writeCtrl s v).intenDone = s.intenDone := rfl
@[simp] theorem writeCtrl_intenErr (v : Word32) : (writeCtrl s v).intenErr = s.intenErr := rfl
@[simp] theorem writeCtrl_errlog (v : Word32) : (writeCtrl s v).errlog = s.errlog := rfl
@[simp] theorem writeCtrl_seq (v : Word32) : (writeCtrl s v).seq = s.seq := rfl
@[simp] theorem writeCtrl_host (v : Word32) : (writeCtrl s v).host = s.host := rfl
@[simp] theorem writeCtrl_seen (v : Word32) : (writeCtrl s v).seen = s.seen := rfl
@[simp] theorem writeCtrl_wait (v : Word32) : (writeCtrl s v).wait = s.wait := rfl

@[simp] theorem writeInten_cfg (v : Word32) : (writeInten s v).cfg = s.cfg := rfl
@[simp] theorem writeInten_f (v : Word32) : (writeInten s v).f = s.f := rfl
@[simp] theorem writeInten_pt (v : Word32) : (writeInten s v).pt = s.pt := rfl
@[simp] theorem writeInten_ca (v : Word32) : (writeInten s v).ca = s.ca := rfl
@[simp] theorem writeInten_cb (v : Word32) : (writeInten s v).cb = s.cb := rfl
@[simp] theorem writeInten_cp (v : Word32) : (writeInten s v).cp = s.cp := rfl
@[simp] theorem writeInten_cn (v : Word32) : (writeInten s v).cn = s.cn := rfl
@[simp] theorem writeInten_ctrlLock (v : Word32) : (writeInten s v).ctrlLock = s.ctrlLock := rfl
@[simp] theorem writeInten_ctrlStrict (v : Word32) : (writeInten s v).ctrlStrict = s.ctrlStrict := rfl
@[simp] theorem writeInten_cmd (v : Word32) : (writeInten s v).cmd = s.cmd := rfl
@[simp] theorem writeInten_statusDone (v : Word32) : (writeInten s v).statusDone = s.statusDone := rfl
@[simp] theorem writeInten_statusErr (v : Word32) : (writeInten s v).statusErr = s.statusErr := rfl
@[simp] theorem writeInten_intenDone (v : Word32) : (writeInten s v).intenDone = v.getLsbD 0 := rfl
@[simp] theorem writeInten_intenErr (v : Word32) : (writeInten s v).intenErr = v.getLsbD 1 := rfl
@[simp] theorem writeInten_errlog (v : Word32) : (writeInten s v).errlog = s.errlog := rfl
@[simp] theorem writeInten_seq (v : Word32) : (writeInten s v).seq = s.seq := rfl
@[simp] theorem writeInten_host (v : Word32) : (writeInten s v).host = s.host := rfl
@[simp] theorem writeInten_seen (v : Word32) : (writeInten s v).seen = s.seen := rfl
@[simp] theorem writeInten_wait (v : Word32) : (writeInten s v).wait = s.wait := rfl

@[simp] theorem writeErrlog_cfg (v : Word32) : (writeErrlog s v).cfg = s.cfg := rfl
@[simp] theorem writeErrlog_f (v : Word32) : (writeErrlog s v).f = s.f := rfl
@[simp] theorem writeErrlog_pt (v : Word32) : (writeErrlog s v).pt = s.pt := rfl
@[simp] theorem writeErrlog_ca (v : Word32) : (writeErrlog s v).ca = s.ca := rfl
@[simp] theorem writeErrlog_cb (v : Word32) : (writeErrlog s v).cb = s.cb := rfl
@[simp] theorem writeErrlog_cp (v : Word32) : (writeErrlog s v).cp = s.cp := rfl
@[simp] theorem writeErrlog_cn (v : Word32) : (writeErrlog s v).cn = s.cn := rfl
@[simp] theorem writeErrlog_ctrlLock (v : Word32) : (writeErrlog s v).ctrlLock = s.ctrlLock := rfl
@[simp] theorem writeErrlog_ctrlStrict (v : Word32) : (writeErrlog s v).ctrlStrict = s.ctrlStrict := rfl
@[simp] theorem writeErrlog_cmd (v : Word32) : (writeErrlog s v).cmd = s.cmd := rfl
@[simp] theorem writeErrlog_statusDone (v : Word32) : (writeErrlog s v).statusDone = s.statusDone := rfl
@[simp] theorem writeErrlog_statusErr (v : Word32) : (writeErrlog s v).statusErr = s.statusErr := rfl
@[simp] theorem writeErrlog_intenDone (v : Word32) : (writeErrlog s v).intenDone = s.intenDone := rfl
@[simp] theorem writeErrlog_intenErr (v : Word32) : (writeErrlog s v).intenErr = s.intenErr := rfl
@[simp] theorem writeErrlog_errlog (v : Word32) : (writeErrlog s v).errlog = s.errlog &&& ~~~v := rfl
@[simp] theorem writeErrlog_seq (v : Word32) : (writeErrlog s v).seq = s.seq := rfl
@[simp] theorem writeErrlog_host (v : Word32) : (writeErrlog s v).host = s.host := rfl
@[simp] theorem writeErrlog_seen (v : Word32) : (writeErrlog s v).seen = s.seen := rfl
@[simp] theorem writeErrlog_wait (v : Word32) : (writeErrlog s v).wait = s.wait := rfl

@[simp] theorem withCommand_cfg (c : Word32) : (withCommand s c).cfg = s.cfg := rfl
@[simp] theorem withCommand_f (c : Word32) : (withCommand s c).f = s.f := rfl
@[simp] theorem withCommand_pt (c : Word32) : (withCommand s c).pt = s.pt := rfl
@[simp] theorem withCommand_ca (c : Word32) : (withCommand s c).ca = s.ca := rfl
@[simp] theorem withCommand_cb (c : Word32) : (withCommand s c).cb = s.cb := rfl
@[simp] theorem withCommand_cp (c : Word32) : (withCommand s c).cp = s.cp := rfl
@[simp] theorem withCommand_cn (c : Word32) : (withCommand s c).cn = s.cn := rfl
@[simp] theorem withCommand_ctrlLock (c : Word32) : (withCommand s c).ctrlLock = s.ctrlLock := rfl
@[simp] theorem withCommand_ctrlStrict (c : Word32) : (withCommand s c).ctrlStrict = s.ctrlStrict := rfl
@[simp] theorem withCommand_cmd (c : Word32) : (withCommand s c).cmd = c := rfl
@[simp] theorem withCommand_statusDone (c : Word32) : (withCommand s c).statusDone = false := rfl
@[simp] theorem withCommand_statusErr (c : Word32) : (withCommand s c).statusErr = 0 := rfl
@[simp] theorem withCommand_intenDone (c : Word32) : (withCommand s c).intenDone = s.intenDone := rfl
@[simp] theorem withCommand_intenErr (c : Word32) : (withCommand s c).intenErr = s.intenErr := rfl
@[simp] theorem withCommand_errlog (c : Word32) : (withCommand s c).errlog = s.errlog := rfl
@[simp] theorem withCommand_seq (c : Word32) : (withCommand s c).seq = .busy := rfl
@[simp] theorem withCommand_host (c : Word32) : (withCommand s c).host = s.host := rfl
@[simp] theorem withCommand_seen (c : Word32) : (withCommand s c).seen = s.seen := rfl
@[simp] theorem withCommand_wait (c : Word32) : (withCommand s c).wait = 0 := rfl

end Sys2Proof.Machine
end

