-- ==== Sys2Proof/Laws/Registers.lean ====
section
/-! SUPPORT. Reading a register after a register write, and which reads the completion of a command leaves alone. -/

namespace Sys2Proof.Machine

variable (s : State)

theorem fieldReg_setField (i k : FReg) (v : Word) :
    (s.setField i v).fieldReg k = if i = k then v else s.fieldReg k := by
  simp [State.fieldReg, State.setField, Vector.get_eq_getElem, Vector.getElem_set, Fin.ext_iff]

@[simp] theorem fieldReg_setField_self (i : FReg) (v : Word) : (s.setField i v).fieldReg i = v := by
  simp [fieldReg_setField]

theorem fieldReg_setField_ne {i k : FReg} (h : i ≠ k) (v : Word) : (s.setField i v).fieldReg k = s.fieldReg k := by
  simp [fieldReg_setField, h]

theorem pointReg_setPoint (j k : PReg) (r : PointReg) :
    (s.setPoint j r).pointReg k = if j = k then r else s.pointReg k := by
  simp [State.pointReg, State.setPoint, Vector.get_eq_getElem, Vector.getElem_set, Fin.ext_iff]

@[simp] theorem pointReg_setPoint_self (j : PReg) (r : PointReg) : (s.setPoint j r).pointReg j = r := by
  simp [pointReg_setPoint]

theorem pointReg_setPoint_ne {j k : PReg} (h : j ≠ k) (r : PointReg) :
    (s.setPoint j r).pointReg k = s.pointReg k := by
  simp [pointReg_setPoint, h]

/-- A field register depends on the field file alone. -/
theorem fieldReg_congr {s t : State} (h : t.f = s.f) (i : FReg) : t.fieldReg i = s.fieldReg i := by
  simp [State.fieldReg, h]

/-- A point register depends on the point file alone. -/
theorem pointReg_congr {s t : State} (h : t.pt = s.pt) (j : PReg) : t.pointReg j = s.pointReg j := by
  simp [State.pointReg, h]

@[simp] theorem fieldReg_setPoint (j : PReg) (r : PointReg) (i : FReg) :
    (s.setPoint j r).fieldReg i = s.fieldReg i := rfl

@[simp] theorem pointReg_setField (i : FReg) (v : Word) (j : PReg) :
    (s.setField i v).pointReg j = s.pointReg j := rfl

@[simp] theorem fieldReg_logSet (n : Nat) (i : FReg) : (s.logSet n).fieldReg i = s.fieldReg i := rfl

@[simp] theorem pointReg_logSet (n : Nat) (j : PReg) : (s.logSet n).pointReg j = s.pointReg j := rfl

@[simp] theorem fieldReg_finish (c : Nat) (i : FReg) : (s.finish c).fieldReg i = s.fieldReg i := rfl

@[simp] theorem pointReg_finish (c : Nat) (j : PReg) : (s.finish c).pointReg j = s.pointReg j := rfl

@[simp] theorem fieldReg_acceptCommand (c : Word32) (i : FReg) :
    (acceptCommand s c).fieldReg i = s.fieldReg i := rfl

@[simp] theorem pointReg_acceptCommand (c : Word32) (j : PReg) :
    (acceptCommand s c).pointReg j = s.pointReg j := rfl

/-- Every field register of the reset state is 0 (rule R49). -/
@[simp] theorem fieldReg_resetWith (cfg : Config) (i : FReg) : (State.resetWith cfg).fieldReg i = 0 := by
  simp [State.fieldReg, State.resetWith, Vector.get_eq_getElem]

/-- Every point register of the reset state is affine (0, 0) (rules R47, R49). -/
@[simp] theorem pointReg_resetWith (cfg : Config) (j : PReg) :
    (State.resetWith cfg).pointReg j = { inf := false, x := 0, y := 0 } := by
  simp [State.pointReg, State.resetWith, Vector.get_eq_getElem]

/-- A register write of the value a register already holds changes nothing. -/
theorem setField_same (i : FReg) : s.setField i (s.fieldReg i) = s := by
  simp [State.fieldReg, State.setField, Vector.get_eq_getElem]

/-- `PointReg` of a Point's register form has that Point as its value, for coordinates that fit a slot (rule R26). -/
theorem value_toReg_affine {x y : Nat} (hx : x < 2 ^ 1024) (hy : y < 2 ^ 1024) :
    (Point.affine x y).toReg.value = .affine x y := by
  simp only [Point.toReg, PointReg.value, BitVec.toNat_ofNat, Nat.mod_eq_of_lt hx, Nat.mod_eq_of_lt hy,
    Bool.false_eq_true, if_false]

@[simp] theorem value_toReg_identity : Point.identity.toReg.value = .identity := rfl

end Sys2Proof.Machine
end

