-- ==== Sys2Proof/Laws/Commands.lean ====
section
/-! SUPPORT. What the shared operations of a command do, said once (rules R101, R258, R259), and what the results of the
group law, the scalar multiplier and the decompressor can be (rules R161, R181, R201). -/

namespace Sys2Proof.Machine

variable {s : State}

/-- A field command with a value writes its destination and completes (rules R120, R259). -/
theorem fieldCommand_ok (h : 3 < modulus s) (rd : FReg) (v : Nat) :
    fieldCommand s rd (.ok v) = .next ((s.setField rd (BitVec.ofNat 1024 v)).finish 0) := by
  simp [fieldCommand, checked, Nat.not_le.2 h, Except.map, complete, State.writeResult]

/-- A field command whose own rule raises an error completes with it (rules R258, R259). -/
theorem fieldCommand_error (h : 3 < modulus s) (rd : FReg) (e : ErrKind) :
    fieldCommand s rd (.error e) = .next (takeError e s) := by
  simp [fieldCommand, checked, Nat.not_le.2 h, Except.map, complete]

/-- A field command under a modulus of 3 or less completes with InvalidCurveParameters (rule R256). -/
theorem fieldCommand_small (h : modulus s ≤ 3) (rd : FReg) (own : Except ErrKind Nat) :
    fieldCommand s rd own = .next (takeError .invalidCurveParameters s) := by
  simp [fieldCommand, checked, h, complete]

/-- A point command with a value writes its destination and completes (rules R160, R259). -/
theorem pointCommand_ok {rd : PReg} (hl : lockedDest s rd = false) (h : 3 < modulus s) (r : Point) :
    pointCommand s rd (.ok r) = .next ((s.setPoint rd r.toReg).finish 0) := by
  simp [pointCommand, checked, hl, Nat.not_le.2 h, Except.map, complete, State.writeResult]

/-- A point command whose own rule raises an error completes with it (rules R258, R259). -/
theorem pointCommand_error {rd : PReg} (hl : lockedDest s rd = false) (h : 3 < modulus s) (e : ErrKind) :
    pointCommand s rd (.error e) = .next (takeError e s) := by
  simp [pointCommand, checked, hl, Nat.not_le.2 h, Except.map, complete]

/-- A point command under a modulus of 3 or less completes with InvalidCurveParameters (rule R256). -/
theorem pointCommand_small {rd : PReg} (hl : lockedDest s rd = false) (h : modulus s ≤ 3) (own : Except ErrKind Point) :
    pointCommand s rd own = .next (takeError .invalidCurveParameters s) := by
  simp [pointCommand, checked, hl, h, complete]

/-- A point command with a locked destination is illegal, whatever the modulus (rules R97, R255). -/
theorem pointCommand_locked {rd : PReg} (hl : lockedDest s rd = true) (own : Except ErrKind Point) :
    pointCommand s rd own = .next (takeError .illegalCommand s) := by
  simp [pointCommand, checked, hl, complete]

/-- Everything a field command can do: write its own value, or take an error. -/
theorem fieldCommand_cases (s : State) (rd : FReg) (own : Except ErrKind Nat) :
    (3 < modulus s ∧ ∃ v, own = .ok v ∧
      fieldCommand s rd own = .next ((s.setField rd (BitVec.ofNat 1024 v)).finish 0)) ∨
    ∃ e, fieldCommand s rd own = .next (takeError e s) := by
  by_cases h : 3 < modulus s
  · cases own with
    | ok v => exact .inl ⟨h, v, rfl, fieldCommand_ok h rd v⟩
    | error e => exact .inr ⟨e, fieldCommand_error h rd e⟩
  · exact .inr ⟨_, fieldCommand_small (by omega) rd own⟩

/-- Everything a point command can do: write its own value to a destination that is not locked, or take an error. -/
theorem pointCommand_cases (s : State) (rd : PReg) (own : Except ErrKind Point) :
    (3 < modulus s ∧ lockedDest s rd = false ∧ ∃ r, own = .ok r ∧
      pointCommand s rd own = .next ((s.setPoint rd r.toReg).finish 0)) ∨
    ∃ e, pointCommand s rd own = .next (takeError e s) := by
  cases hl : lockedDest s rd with
  | true => exact .inr ⟨_, pointCommand_locked hl own⟩
  | false =>
    by_cases h : 3 < modulus s
    · cases own with
      | ok r => exact .inl ⟨h, rfl, r, rfl, pointCommand_ok hl h r⟩
      | error e => exact .inr ⟨e, pointCommand_error hl h e⟩
    · exact .inr ⟨_, pointCommand_small hl (by omega) own⟩

/-- A Point whose coordinates are canonical residues (rule R22). -/
def Point.canonical (p : Nat) : Point → Prop
  | .identity => True
  | .affine x y => x < p ∧ y < p

/-- The third point of a chord or tangent has canonical coordinates (rule R166). -/
theorem chordPoint_canonical {p : Nat} (hp : 0 < p) (m ax ay bx : Nat) : (chordPoint p m ax ay bx).canonical p :=
  ⟨normalize_lt _ hp, normalize_lt _ hp⟩

/-- Everything `add` can answer: a copy of an operand beside the identity, or a canonical point (rules R162 to R166). -/
theorem pointAdd_cases {p a : Nat} (hp : 0 < p) {A B R : Point} (h : pointAdd p a A B = .ok R) :
    (A = .identity ∧ R = B) ∨ (B = .identity ∧ R = A) ∨ R.canonical p := by
  cases A with
  | identity => cases h; exact .inl ⟨rfl, rfl⟩
  | affine ax ay =>
    cases B with
    | identity => cases h; exact .inr (.inl ⟨rfl, rfl⟩)
    | affine bx by' =>
      refine .inr (.inr ?_)
      simp only [pointAdd, addAffine] at h
      split at h
      · cases h; trivial
      · split at h
        · cases hs : tangentSlope p a ax ay <;> rw [hs] at h <;> cases h
          exact chordPoint_canonical hp _ _ _ _
        · cases hs : chordSlope p (normalize ((bx : Int) - ax) p) ay by' <;> rw [hs] at h <;> cases h
          exact chordPoint_canonical hp _ _ _ _

/-- `add` raises only NotInvertible (rule R161). -/
theorem pointAdd_error {p a : Nat} (hp : 1 < p) {A B : Point} {e : ErrKind} (h : pointAdd p a A B = .error e) :
    e = .notInvertible := by
  cases A with
  | identity => cases h
  | affine ax ay =>
    cases B with
    | identity => cases h
    | affine bx by' =>
      simp only [pointAdd, addAffine] at h
      split at h
      · cases h
      · split at h
        · unfold tangentSlope at h
          cases hi : modInverse (2 * ay) p with
          | ok u => rw [hi] at h; cases h
          | error e' => rw [hi] at h; cases h; exact ((modInverse_eq_error hp).1 hi).1
        · unfold chordSlope at h
          cases hi : modInverse (normalize ((bx : Int) - ax) p) p with
          | ok u => rw [hi] at h; cases h
          | error e' => rw [hi] at h; cases h; exact ((modInverse_eq_error hp).1 hi).1

/-- Everything one turn of the loop can answer (rule R184). -/
theorem smulTurn_cases {p a : Nat} (hp : 0 < p) {P acc R : Point} {bit : Bool} (hacc : acc = P ∨ acc.canonical p)
    (h : smulTurn p a P bit acc = .ok R) : R = P ∨ R.canonical p := by
  unfold smulTurn at h
  cases hd : pointAdd p a acc acc with
  | error e => rw [hd] at h; cases h
  | ok d =>
    have hdc : d = P ∨ d.canonical p := by
      rcases pointAdd_cases hp hd with ⟨-, rfl⟩ | ⟨-, rfl⟩ | hc
      · exact hacc
      · exact hacc
      · exact .inr hc
    simp only [hd] at h
    split at h
    · rcases pointAdd_cases hp h with ⟨-, rfl⟩ | ⟨-, rfl⟩ | hc
      · exact .inl rfl
      · exact hdc
      · exact .inr hc
    · cases h; exact hdc

/-- One turn raises only NotInvertible (rule R181). -/
theorem smulTurn_error {p a : Nat} (hp : 1 < p) {P acc : Point} {bit : Bool} {e : ErrKind}
    (h : smulTurn p a P bit acc = .error e) : e = .notInvertible := by
  unfold smulTurn at h
  cases hd : pointAdd p a acc acc with
  | error e => rw [hd] at h; cases h; exact pointAdd_error hp hd
  | ok d =>
    simp only [hd] at h
    split at h
    · exact pointAdd_error hp h
    · cases h

/-- Everything the scalar multiplier's loop can answer: P itself or a canonical point (rules R181, R187). -/
theorem smulLoop_cases {p a : Nat} (hp : 0 < p) {P : Point} {k : Nat} : ∀ {i : Nat} {acc R : Point},
    (acc = P ∨ acc.canonical p) → smulLoop p a P k i acc = .ok R → R = P ∨ R.canonical p := by
  intro i
  induction i with
  | zero => intro acc R hacc h; cases h; exact hacc
  | succ i ih =>
    intro acc R hacc h
    unfold smulLoop at h
    cases ht : smulTurn p a P (k.testBit i) acc with
    | error e => rw [ht] at h; cases h
    | ok q => rw [ht] at h; exact ih (smulTurn_cases hp hacc ht) h

/-- The loop raises only NotInvertible (rule R181). -/
theorem smulLoop_error {p a : Nat} (hp : 1 < p) {P : Point} {k : Nat} {e : ErrKind} : ∀ {i : Nat} {acc : Point},
    smulLoop p a P k i acc = .error e → e = .notInvertible := by
  intro i
  induction i with
  | zero => intro acc h; cases h
  | succ i ih =>
    intro acc h
    unfold smulLoop at h
    cases ht : smulTurn p a P (k.testBit i) acc with
    | error e => rw [ht] at h; cases h; exact smulTurn_error hp ht
    | ok q => rw [ht] at h; exact ih h

/-- Everything the decompressor can answer: an affine point with the given x, and the given or a canonical y (rules R201,
R202, R204, R208). -/
theorem decodePoint_cases {p a b : Nat} (hp : 1 < p) {strict : Bool} {tag x y : Nat} {R : Point}
    (h : decodePoint p a b strict tag x y = .ok R) : ∃ y', R = .affine x y' ∧ (y' = y ∨ y' < p) := by
  unfold decodePoint at h
  split at h
  · unfold decodeUncompressed at h
    split at h
    · cases h
    · cases h; exact ⟨y, rfl, .inl rfl⟩
  · split at h
    · simp only [decodeCompressed] at h
      split at h
      · cases h
      · split at h
        · cases h
        · cases h
          refine ⟨_, rfl, .inr ?_⟩
          split
          · exact normalize_lt _ (by omega)
          · rw [modPow_eq _ _ hp]; exact Nat.mod_lt _ (by omega)
    · cases h

end Sys2Proof.Machine
end

