-- ==== Sys2Proof/Laws/Encoding.lean ====
section
/-! SUPPORT. Cutting a word into fields and putting it together again are inverse (rule R91); the index checks. -/

namespace Sys2Proof

/-- Bit i of an assembled command word (rule R91). -/
theorem getLsbD_toWord (x : Fields) (i : Nat) :
    x.toWord.getLsbD i =
      if i < 8 then x.opcode.getLsbD i
      else if i < 12 then x.rd.getLsbD (i - 8)
      else if i < 16 then x.rs1.getLsbD (i - 12)
      else if i < 20 then x.rs2.getLsbD (i - 16)
      else if i < 28 then x.imm8.getLsbD (i - 20)
      else if i < 29 then x.neg
      else x.reserved.getLsbD (i - 29) := by
  simp only [Fields.toWord, BitVec.getLsbD_append]
  repeat' split
  all_goals first
    | rfl
    | omega
    | (simp; omega)

/-- Cutting an assembled word gives its fields back (rule R91). -/
@[simp] theorem ofWord_toWord (x : Fields) : Fields.ofWord x.toWord = x := by
  obtain ⟨op, rd, rs1, rs2, imm, neg, res⟩ := x
  simp only [Fields.ofWord, Fields.mk.injEq]
  refine ⟨?_, ?_, ?_, ?_, ?_, by rw [getLsbD_toWord]; rfl, ?_⟩ <;>
  · apply BitVec.eq_of_getLsbD_eq
    intro i hi
    simp only [BitVec.getLsbD_extractLsb', hi, getLsbD_toWord, decide_true, Bool.true_and]
    repeat' split
    all_goals first
      | omega
      | exact congrArg _ (by omega)

/-- A word is assembled from its own fields (rule R91). -/
@[simp] theorem toWord_ofWord (c : Word32) : (Fields.ofWord c).toWord = c := by
  apply BitVec.eq_of_getLsbD_eq
  intro i hi
  rw [getLsbD_toWord]
  simp only [Fields.ofWord, BitVec.getLsbD_extractLsb']
  repeat' split
  all_goals
    first
      | exact congrArg _ (by omega)
      | (rw [decide_eq_true (by omega), Bool.true_and]; exact congrArg _ (by omega))

/-- Words assembled from fields are equal exactly when the fields are (rule R91). -/
theorem toWord_inj {x y : Fields} : x.toWord = y.toWord ↔ x = y := by
  constructor
  · intro h; rw [← ofWord_toWord x, h, ofWord_toWord]
  · rintro rfl; rfl

/-- Masking a command word masks its fields (rule R93). -/
theorem toWord_and (x y : Fields) :
    x.toWord &&& y.toWord =
      Fields.toWord ⟨x.opcode &&& y.opcode, x.rd &&& y.rd, x.rs1 &&& y.rs1, x.rs2 &&& y.rs2, x.imm8 &&& y.imm8,
        x.neg && y.neg, x.reserved &&& y.reserved⟩ := by
  apply BitVec.eq_of_getLsbD_eq
  intro i hi
  simp only [BitVec.getLsbD_and, getLsbD_toWord]
  repeat' split
  all_goals rfl

/-- The number of a command word, field by field (rule R91). -/
theorem toNat_toWord (x : Fields) :
    x.toWord.toNat = x.opcode.toNat + 2 ^ 8 * x.rd.toNat + 2 ^ 12 * x.rs1.toNat + 2 ^ 16 * x.rs2.toNat +
      2 ^ 20 * x.imm8.toNat + 2 ^ 28 * x.neg.toNat + 2 ^ 29 * x.reserved.toNat := by
  have app : ∀ {m n : Nat} (a : BitVec m) (b : BitVec n), (a ++ b).toNat = 2 ^ n * a.toNat + b.toNat := by
    intro m n a b
    rw [BitVec.toNat_append, ← Nat.shiftLeft_add_eq_or_of_lt b.isLt, Nat.shiftLeft_eq, mul_comm]
  simp only [Fields.toWord, app, BitVec.toNat_ofBool]
  ring

@[simp] theorem fieldIndex_ofNat (i : FReg) : fieldIndex (BitVec.ofNat 4 i) = .ok i := by revert i; decide

@[simp] theorem pointIndex_ofNat (i : PReg) : pointIndex (BitVec.ofNat 4 i) = .ok i := by revert i; decide

/-- An index field is a field-register index exactly when it is that register's number (rule R92). -/
theorem fieldIndex_eq_ok {b : BitVec 4} {i : FReg} : fieldIndex b = .ok i ↔ b = BitVec.ofNat 4 i := by
  revert b i; decide

/-- An index field is a point-register index exactly when it is that register's number (rule R92). -/
theorem pointIndex_eq_ok {b : BitVec 4} {i : PReg} : pointIndex b = .ok i ↔ b = BitVec.ofNat 4 i := by
  revert b i; decide

@[simp] theorem mustBeZero_eq_ok {b : Bool} {u : Unit} : mustBeZero b = .ok u ↔ b = true := by
  cases b <;> simp [mustBeZero]

/-- A bind in the decoder succeeds exactly when both parts do. -/
theorem bind_eq_ok {ε α β : Type} {x : Except ε α} {k : α → Except ε β} {b : β} :
    (x >>= k) = .ok b ↔ ∃ a, x = .ok a ∧ k a = .ok b := by
  cases x <;> simp [bind, Except.bind]

end Sys2Proof
end

