-- ==== Sys2Proof/Laws/Window.lean ====
section
/-! SUPPORT. The window: where a slot's words are (rules R61, R62), reading after writing a word (rule R65), and what a
WinWrite can do, said once (rules R65, R69, R70). -/

namespace Sys2Proof.Machine

/-- Every slot base of rule R61 is a multiple of 128 between 0x080 and 0xB80. -/
theorem SlotReg.base_range (r : SlotReg) : 128 ≤ r.base ∧ r.base % 128 = 0 ∧ r.base ≤ 0xB80 := by
  cases r <;> simp only [SlotReg.base] <;> decide +revert

/-- The map finds the register at its slot base (rule R61). -/
theorem slotAt_base (r : SlotReg) : slotAt (r.base / 128) = some r := by
  cases r with
  | field i => revert i; decide
  | ptX j => revert j; decide
  | ptY j => revert j; decide
  | _ => rfl

/-- A register that the map names at 128 * k has its slot there (rule R61). -/
theorem base_of_slotAt {k : Nat} (hk : k < 32) {r : SlotReg} (h : slotAt k = some r) : r.base = 128 * k := by
  have key : ∀ k : Fin 32, ∀ r ∈ slotAt k, r.base = 128 * k := by decide
  exact key ⟨k, hk⟩ r h

theorem slotOffset_toNat (r : SlotReg) {m : Nat} (hm : m < 32) : (slotOffset r m).toNat = r.base + 4 * m := by
  have h := r.base_range
  rw [slotOffset, BitVec.toNat_ofNat, Nat.mod_eq_of_lt (by omega)]

/-- Word m of a slot is mapped when m < NW (rules R61, R62). -/
theorem locate_slotOffset {nw : Nat} (hnw : nw ≤ 32) (r : SlotReg) {m : Nat} (hm : m < nw) :
    locate nw (slotOffset r m) = .slot r m := by
  have h := r.base_range
  have ho := slotOffset_toNat r (by omega : m < 32)
  have h1 : ¬ (slotOffset r m).toNat < 128 := by omega
  have h2 : (slotOffset r m).toNat / 128 = r.base / 128 := by omega
  have h3 : (slotOffset r m).toNat % 128 / 4 = m := by omega
  simp [locate, h1, h2, h3, slotAt_base, hm]

/-- An aligned offset that the map resolves to a slot word is that word's offset (rules R61, R62). -/
theorem eq_slotOffset_of_locate {nw : Nat} {off : BitVec 12} {r : SlotReg} {m : Nat}
    (ha : off.toNat % 4 = 0) (h : locate nw off = .slot r m) : m < nw ∧ m < 32 ∧ off = slotOffset r m := by
  unfold locate at h
  split at h
  · unfold controlRegAt at h; split at h <;> cases h
  · split at h
    · rename_i q hq
      split at h
      · rename_i hlt
        cases h
        have hb := base_of_slotAt (by omega) hq
        refine ⟨hlt, by omega, BitVec.eq_of_toNat_eq ?_⟩
        rw [slotOffset_toNat _ (by omega)]
        omega
      · cases h
    · cases h

/-- Below 0x080 the map is the list of control and status registers (rule R61). -/
theorem locate_control (nw : Nat) {off : BitVec 12} (h : off.toNat < 128) :
    locate nw off = controlRegAt (off.toNat / 4) := by
  rw [locate, if_pos h]

/-- From 0x080 to 0x27F and from 0x400 to 0xBFF an aligned offset is a word of a slot, mapped when the word is below NW
(rules R61, R67). -/
theorem locate_mapped {nw : Nat} {off : BitVec 12} (ha : off.toNat % 4 = 0)
    (hr : (0x080 ≤ off.toNat ∧ off.toNat < 0x280) ∨ (0x400 ≤ off.toNat ∧ off.toNat < 0xC00))
    (hm : off.toNat % 128 / 4 < nw) :
    ∃ r m, locate nw off = .slot r m ∧ r.base + 4 * m = off.toNat := by
  have key : ∀ k : Fin 32, (1 ≤ k.val ∧ k.val ≤ 4) ∨ (8 ≤ k.val ∧ k.val ≤ 23) → (slotAt k).isSome := by decide
  have hk : off.toNat / 128 < 32 := by omega
  obtain ⟨r, hr'⟩ := Option.isSome_iff_exists.1 (key ⟨off.toNat / 128, hk⟩ (by dsimp only; omega))
  have hb := base_of_slotAt hk hr'
  refine ⟨r, off.toNat % 128 / 4, ?_, by omega⟩
  simp only at hr'
  simp [locate, show ¬ off.toNat < 128 by omega, hr', hm]

/-- The offsets of rule R67 are unmapped. -/
theorem locate_unmapped {nw : Nat} {off : BitVec 12} (ha : off.toNat % 4 = 0)
    (h : (0x020 ≤ off.toNat ∧ off.toNat < 0x080) ∨ (0x280 ≤ off.toNat ∧ off.toNat < 0x400) ∨ 0xC00 ≤ off.toNat ∨
      (0x080 ≤ off.toNat ∧ nw ≤ off.toNat % 128 / 4)) : locate nw off = .unmapped := by
  unfold locate
  split
  · have h8 : 8 ≤ off.toNat / 4 := by omega
    generalize off.toNat / 4 = k at h8
    unfold controlRegAt
    split <;> first | omega | rfl
  · split
    · rename_i r hr
      have hb := base_of_slotAt (by omega) hr
      have hr2 : r.base < 0x280 ∨ (0x400 ≤ r.base ∧ r.base < 0xC00) := by
        cases r <;> simp only [SlotReg.base] <;> omega
      rw [if_neg (by omega)]
    · rfl

/-- A resolved slot word is below NW (rule R67). -/
theorem lt_of_locate {nw : Nat} {off : BitVec 12} {r : SlotReg} {m : Nat} (h : locate nw off = .slot r m) :
    m < nw ∧ m < 32 := by
  unfold locate at h
  split at h
  · unfold controlRegAt at h; split at h <;> cases h
  · split at h
    · split at h
      · rename_i hlt
        cases h
        exact ⟨hlt, by omega⟩
      · cases h
    · cases h

/-- Bit i of a register after a word write (rule R65). -/
theorem getLsbD_setWord (r : Word) (m : Nat) (v : Word32) (i : Nat) (hi : i < 1024) :
    (setWord r m v).getLsbD i = if 32 * m ≤ i ∧ i < 32 * m + 32 then v.getLsbD (i - 32 * m) else r.getLsbD i := by
  simp only [setWord, BitVec.getLsbD_or, BitVec.getLsbD_and, BitVec.getLsbD_not, BitVec.getLsbD_shiftLeft,
    BitVec.getLsbD_setWidth, BitVec.getLsbD_allOnes, hi]
  by_cases h1 : i < 32 * m
  · simp [h1]
  · by_cases h2 : i < 32 * m + 32
    · have h3 : i - 32 * m < 32 := by omega
      have h4 : i - 32 * m < 1024 := by omega
      simp [h1, h2, h3, h4]
    · have h3 : ¬ i - 32 * m < 32 := by omega
      simp [h1, h2, h3]
      intro _ h
      rw [BitVec.getLsbD_of_ge v _ (by omega)] at h
      cases h

/-- Reading the word that was written (rules R64, R65). -/
theorem getWord_setWord_same (r : Word) {m : Nat} (hm : m < 32) (v : Word32) : getWord (setWord r m v) m = v := by
  apply BitVec.eq_of_getLsbD_eq
  intro i hi
  simp only [getWord, BitVec.getLsbD_extractLsb', hi]
  rw [getLsbD_setWord _ _ _ _ (by omega)]
  simp
  omega

/-- Reading another word of the register (rule R65). -/
theorem getWord_setWord_ne (r : Word) {m k : Nat} (hk : k < 32) (h : k ≠ m) (v : Word32) :
    getWord (setWord r m v) k = getWord r k := by
  apply BitVec.eq_of_getLsbD_eq
  intro i hi
  simp only [getWord, BitVec.getLsbD_extractLsb', hi]
  rw [getLsbD_setWord _ _ _ _ (by omega), if_neg (by omega)]

/-- A register's content fits W bits exactly when its bits from W up are 0. -/
theorem fits_iff (r : Word) (w : Nat) : r.toNat < 2 ^ w ↔ ∀ i, w ≤ i → r.getLsbD i = false := by
  constructor
  · intro h i hi
    rw [← BitVec.testBit_toNat]
    exact Nat.testBit_lt_two_pow (lt_of_lt_of_le h (Nat.pow_le_pow_right (by omega) hi))
  · intro h
    apply Nat.lt_pow_two_of_testBit
    intro i hi
    rw [BitVec.testBit_toNat]
    exact h i hi

/-- Writing a mapped word keeps a register within W bits (rules R21, R62). -/
theorem setWord_fits {r : Word} {nw m : Nat} (hm : m < nw) (h : r.toNat < 2 ^ (32 * nw)) (v : Word32) :
    (setWord r m v).toNat < 2 ^ (32 * nw) := by
  rw [fits_iff] at h ⊢
  intro i hi
  by_cases hlt : i < 1024
  · rw [getLsbD_setWord _ _ _ _ hlt, if_neg (by omega), h i hi]
  · exact BitVec.getLsbD_of_ge _ _ (by omega)

@[simp] theorem readSlot_writeSlot_self (s : State) (r : SlotReg) (v : Word) : readSlot (writeSlot s r v) r = v := by
  cases r <;> simp [readSlot, writeSlot]

/-- A slot write leaves every other register alone (rule R65). -/
theorem readSlot_writeSlot_ne (s : State) {r q : SlotReg} (h : q ≠ r) (v : Word) :
    readSlot (writeSlot s r v) q = readSlot s q := by
  cases r <;> cases q <;> simp only [readSlot, writeSlot, fieldReg_setField, pointReg_setPoint] <;>
    first
    | rfl
    | exact absurd rfl h
    | (split <;> simp_all)

end Sys2Proof.Machine
end

