-- ==== Sys2Proof/Laws/Step.lean ====
section
/-! SUPPORT. What one step can do, said once: the meanings (`exec_cases`), the completion step, a window write, a host
action, and the step itself. -/

namespace Sys2Proof.Machine

/-- The register a command names as its destination (rule R94). -/
inductive Dest where
  | field (rd : FReg)
  | point (rd : PReg)
deriving DecidableEq, Repr

/-- The destination of each command (rule R94). -/
def destOf : Instr → Dest
  | .norm _ rd _ => .field rd
  | .normw _ rd _ _ => .field rd
  | .madd rd _ _ => .field rd
  | .msub rd _ _ => .field rd
  | .mmul rd _ _ => .field rd
  | .minv rd _ => .field rd
  | .mpow rd _ _ => .field rd
  | .padd rd _ _ => .point rd
  | .smul _ rd _ _ => .point rd
  | .pdec _ rd _ _ => .point rd

/-- A Point that a command may write: canonical, or with each coordinate copied from a register of the state. -/
def Written (s : State) (r : Point) : Prop :=
  r.canonical (modulus s) ∨ (∃ j, r = pointOperand s j) ∨
    ∃ i y, r = .affine (fieldOperand s i) y ∧ ((∃ k, y = fieldOperand s k) ∨ y < modulus s)

/-- Everything the completion of a command can be: its destination written, or an error taken and nothing written. -/
def Completed (i : Instr) (s t : State) : Prop :=
  (3 < modulus s ∧ ∃ rd v, destOf i = .field rd ∧ v < modulus s ∧
    t = (s.setField rd (BitVec.ofNat 1024 v)).finish 0) ∨
  (3 < modulus s ∧ ∃ rd r, destOf i = .point rd ∧ lockedDest s rd = false ∧ Written s r ∧
    t = (s.setPoint rd r.toReg).finish 0) ∨
  ∃ e, t = takeError e s

theorem completed_of_fieldCommand {i : Instr} {s : State} {rd : FReg} {own : Except ErrKind Nat}
    (hd : destOf i = .field rd) (he : exec i s = fieldCommand s rd own)
    (hv : ∀ v, 3 < modulus s → own = .ok v → v < modulus s) : ∃ t, exec i s = .next t ∧ Completed i s t := by
  rcases fieldCommand_cases s rd own with ⟨h3, v, ho, hn⟩ | ⟨e, hn⟩
  · exact ⟨_, he.trans hn, .inl ⟨h3, rd, v, hd, hv v h3 ho, rfl⟩⟩
  · exact ⟨_, he.trans hn, .inr (.inr ⟨e, rfl⟩)⟩

theorem completed_of_pointCommand {i : Instr} {s : State} {rd : PReg} {own : Except ErrKind Point}
    (hd : destOf i = .point rd) (he : exec i s = pointCommand s rd own)
    (hv : ∀ r, 3 < modulus s → own = .ok r → Written s r) : ∃ t, exec i s = .next t ∧ Completed i s t := by
  rcases pointCommand_cases s rd own with ⟨h3, hl, r, ho, hn⟩ | ⟨e, hn⟩
  · exact ⟨_, he.trans hn, .inr (.inl ⟨h3, rd, r, hd, hl, hv r h3 ho, rfl⟩)⟩
  · exact ⟨_, he.trans hn, .inr (.inr ⟨e, rfl⟩)⟩

/-- Every command completes, in one of the ways of `Completed` (rules R101, R259). -/
theorem exec_cases (i : Instr) (s : State) : ∃ t, exec i s = .next t ∧ Completed i s t := by
  cases i with
  | norm neg rd rs1 => exact completed_of_fieldCommand rfl rfl fun v h3 h => by cases h; exact normalize_lt _ (by omega)
  | normw neg rd rs1 rs2 => exact completed_of_fieldCommand rfl rfl fun v h3 h => by cases h; exact normalize_lt _ (by omega)
  | madd rd rs1 rs2 => exact completed_of_fieldCommand rfl rfl fun v h3 h => by cases h; exact normalize_lt _ (by omega)
  | msub rd rs1 rs2 => exact completed_of_fieldCommand rfl rfl fun v h3 h => by cases h; exact normalize_lt _ (by omega)
  | mmul rd rs1 rs2 => exact completed_of_fieldCommand rfl rfl fun v h3 h => by cases h; exact normalize_lt _ (by omega)
  | minv rd rs1 => exact completed_of_fieldCommand rfl rfl fun v h3 h => ((modInverse_eq_ok (by omega)).1 h).1
  | mpow rd rs1 rs2 =>
    refine completed_of_fieldCommand rfl rfl fun v h3 h => ?_
    cases h
    rw [modPow_eq _ _ (by omega)]
    exact Nat.mod_lt _ (by omega)
  | padd rd rs1 rs2 =>
    refine completed_of_pointCommand rfl rfl fun r h3 h => ?_
    rcases pointAdd_cases (by omega) h with ⟨-, rfl⟩ | ⟨-, rfl⟩ | hc
    · exact .inr (.inl ⟨rs2, rfl⟩)
    · exact .inr (.inl ⟨rs1, rfl⟩)
    · exact .inl hc
  | smul neg rd rs1 rs2 =>
    refine completed_of_pointCommand rfl rfl fun r h3 h => ?_
    unfold scalarMultiply at h
    split at h
    · cases h
    · split at h
      · cases h; exact .inl trivial
      · rcases smulLoop_cases (by omega) (.inl rfl) h with rfl | hc
        · exact .inr (.inl ⟨rs1, rfl⟩)
        · exact .inl hc
  | pdec tag rd rs1 rs2 =>
    refine completed_of_pointCommand rfl rfl fun r h3 h => ?_
    obtain ⟨y, rfl, rfl | hy⟩ := decodePoint_cases (by omega) h
    · exact .inr (.inr ⟨rs1, _, rfl, .inl ⟨rs2, rfl⟩⟩)
    · exact .inr (.inr ⟨rs1, y, rfl, .inr hy⟩)

/-- The completion step always completes: a command's own effect, or IllegalCommand (rules R101, R259). -/
theorem completionStep_cases (s : State) :
    (∃ i, decode s.cmd = .ok i ∧ completionStep s = exec i s) ∨
    ((∀ i, decode s.cmd ≠ .ok i) ∧ completionStep s = .next (takeError .illegalCommand s)) := by
  unfold completionStep
  cases h : decode s.cmd with
  | ok i => exact .inl ⟨i, rfl, rfl⟩
  | error r => exact .inr ⟨by simp, rfl⟩

/-- The completion step answers a next state (rules R29, R259). -/
theorem completionStep_next (s : State) : ∃ t, completionStep s = .next t := by
  rcases completionStep_cases s with ⟨i, -, h⟩ | ⟨-, h⟩
  · obtain ⟨t, ht, -⟩ := exec_cases i s
    exact ⟨t, h.trans ht⟩
  · exact ⟨_, h⟩

/-- Everything a window write can do (rule R65). -/
theorem winWrite_cases (s : State) (off : BitVec 12) (v : Word32) :
    winWrite s off v = s ∨ winWrite s off v = writeStatus s v ∨ winWrite s off v = writeInten s v ∨
    winWrite s off v = writeErrlog s v ∨ (s.seq = .busy ∧ winWrite s off v = s.logSet busyWrBit) ∨
    (s.seq = .idle ∧ (winWrite s off v = acceptCommand s v ∨ winWrite s off v = writeCtrl s v ∨
      winWrite s off v = writePtinf s v ∨
      ∃ r m, m < s.cfg.nw ∧ m < 32 ∧ winWrite s off v = writeSlotWord s r m v)) := by
  unfold winWrite gated State.busy
  cases hs : s.seq <;> cases hl : locate s.cfg.nw off <;> simp
  rename_i r m
  exact .inr (.inr (.inr (.inr (.inr (.inr (.inr ⟨r, m, (lt_of_locate hl).1, (lt_of_locate hl).2, rfl⟩))))))

/-- Everything a host action that the block takes can do (rules R64, R65, R220, R290). -/
theorem hostAction_cases {a : HostAction} {s t : State} (h : hostAction a s = .next t) :
    (∃ x, t = { s with seen := some x }) ∨ (∃ off v, a = .winWrite off .word v ∧ t = winWrite s off v) ∨
    (a = .reset ∧ t = hostReset s) := by
  cases a with
  | winRead off width =>
    simp only [hostAction] at h
    split at h
    · cases h
    · cases h; exact .inl ⟨_, rfl⟩
  | winWrite off width v =>
    simp only [hostAction] at h
    split at h
    · cases h
    · rename_i hr
      cases h
      have hw : width = .word := by
        unfold accessRefusal at hr
        split at hr
        · cases hr
        · simp_all
      exact .inr (.inl ⟨off, v, by rw [hw], rfl⟩)
  | reset => cases h; exact .inr (.inr ⟨rfl, rfl⟩)
  | observeIrq => cases h; exact .inl ⟨_, rfl⟩

/-- The state from which the host's next action is taken. -/
def deliver (s : State) (rest : List HostAction) : State := { s with host := rest, wait := s.wait - 1 }

/-- Everything a step can do: the block completes its command, the block idles, or the host's next action is taken. -/
theorem step_cases (s : State) :
    (blockMoves s = true ∧ step s = completionStep s) ∨
    (blockMoves s = false ∧ s.host = [] ∧ step s = .next s) ∨
    (blockMoves s = false ∧ ∃ a rest, s.host = a :: rest ∧ step s = hostAction a (deliver s rest)) := by
  unfold step sequencerStep
  cases hb : blockMoves s with
  | true => exact .inl ⟨rfl, rfl⟩
  | false =>
    cases hh : s.host with
    | nil => exact .inr (.inl ⟨rfl, rfl, by simp⟩)
    | cons a rest => exact .inr (.inr ⟨rfl, a, rest, rfl, by simp [deliver]⟩)

end Sys2Proof.Machine
end

