-- ==== Sys2Proof/Laws/HostSequence.lean ====
section
/-! SUPPORT. The host's sequences: what WR does, how WAIT can end, and when BUILDCURVE stops before it touches the window
(rules R8, R100, R224). -/

namespace Sys2Proof.Machine

/-- Every control register stands at an aligned offset, so no access to it is refused (rules R61, R66). -/
@[simp] theorem accessRefusal_controlReg (r : ControlReg) : accessRefusal r.offset .word = none := by
  cases r <;> rfl

/-- `WR name, v` is the window write at the register's offset (rule R100). -/
@[simp] theorem perform_wrActions (r : ControlReg) (v : Word32) (s : State) :
    perform (wrActions r v) s = .done () (winWrite s r.offset v) := by
  simp [wrActions, perform, hostAction]

/-- Every way in which `WAIT` ends: at once when `DONE = 1`, at the completion step of a running command, or as a poll
without end (rules R100, R306, log 12). -/
theorem runWait_cases (s : State) :
    ((readStatus s).getLsbD 1 = true ∧ runWait s = .done (readErr s) s) ∨
    ((readStatus s).getLsbD 1 = false ∧ (readStatus s).getLsbD 0 = true ∧
      ∃ t, completionStep s = .next t ∧ runWait s = .done (readErr t) t) ∨
    ((readStatus s).getLsbD 1 = false ∧ (readStatus s).getLsbD 0 = false ∧ runWait s = .failed .pollsForEver s) := by
  unfold runWait
  cases hd : (readStatus s).getLsbD 1 with
  | true => simp
  | false =>
    cases hb : (readStatus s).getLsbD 0 with
    | false => simp
    | true =>
      obtain ⟨t, ht⟩ := completionStep_next s
      simp [ht]

/-- A text that does not decode ends BUILDCURVE before it touches the window (rules R222, R224). -/
theorem buildCurve_of_error {a b p n g : List Char} {lock : Bool} {s : State} {e : ErrKind}
    (h : decodeCurve a b p n g = .error e) : buildCurve a b p n g lock s = .failed (.kind e) s := by
  simp [buildCurve, h, HostEnd.lift, HostEnd.andThen]

/-- A decoded number of 2^W or more ends BUILDCURVE before it touches the window (rule R8). -/
theorem buildCurve_of_wide {a b p n g : List Char} {lock : Bool} {s : State} {c : CurveText}
    (h : decodeCurve a b p n g = .ok c) (hw : c.fits s.cfg = false) :
    buildCurve a b p n g lock s = .failed .valueTooWide s := by
  simp [buildCurve, h, hw, HostEnd.lift, HostEnd.andThen]

/-- BUILDCURVE on texts that decode to numbers of at most W bits drives the window (rule R224). -/
theorem buildCurve_of_fits {a b p n g : List Char} {lock : Bool} {s : State} {c : CurveText}
    (h : decodeCurve a b p n g = .ok c) (hw : c.fits s.cfg = true) :
    buildCurve a b p n g lock s = loadCurve c lock s := by
  simp [buildCurve, h, hw, HostEnd.lift, HostEnd.andThen]

end Sys2Proof.Machine
end

