-- ==== Sys2Proof/Laws/PerInstr.lean ====
section
/-! SUPPORT. Families of statements about every instruction as syntax, one lemma per constructor (LAWS.json). -/

namespace Sys2Proof

theorem admits_field_ofNat (i : FReg) : IndexRole.field.admits (BitVec.ofNat 4 i) = true := by revert i; decide

theorem admits_point_ofNat (i : PReg) : IndexRole.point.admits (BitVec.ofNat 4 i) = true := by revert i; decide

theorem admits_zero_zero : IndexRole.zero.admits 0#4 = true := rfl

namespace Laws.FieldsFitFormat

/-- The encoder's fields satisfy the format of the command (rules R92, R97). -/
def Statement (i : Instr) : Prop := (encodeFields i).wellFormed = true

theorem norm (neg : Bool) (rd rs1 : FReg) : Statement (.norm neg rd rs1) := by
  simp [Statement, Fields.wellFormed, encodeFields, plainFields, formatOf, Format.roles, admits_field_ofNat,
    admits_zero_zero]

theorem normw (neg : Bool) (rd rs1 rs2 : FReg) : Statement (.normw neg rd rs1 rs2) := by
  simp [Statement, Fields.wellFormed, encodeFields, plainFields, formatOf, Format.roles, admits_field_ofNat]

theorem madd (rd rs1 rs2 : FReg) : Statement (.madd rd rs1 rs2) := by
  simp [Statement, Fields.wellFormed, encodeFields, plainFields, formatOf, Format.roles, admits_field_ofNat]

theorem msub (rd rs1 rs2 : FReg) : Statement (.msub rd rs1 rs2) := by
  simp [Statement, Fields.wellFormed, encodeFields, plainFields, formatOf, Format.roles, admits_field_ofNat]

theorem mmul (rd rs1 rs2 : FReg) : Statement (.mmul rd rs1 rs2) := by
  simp [Statement, Fields.wellFormed, encodeFields, plainFields, formatOf, Format.roles, admits_field_ofNat]

theorem minv (rd rs1 : FReg) : Statement (.minv rd rs1) := by
  simp [Statement, Fields.wellFormed, encodeFields, plainFields, formatOf, Format.roles, admits_field_ofNat,
    admits_zero_zero]

theorem mpow (rd rs1 rs2 : FReg) : Statement (.mpow rd rs1 rs2) := by
  simp [Statement, Fields.wellFormed, encodeFields, plainFields, formatOf, Format.roles, admits_field_ofNat]

theorem padd (rd rs1 rs2 : PReg) : Statement (.padd rd rs1 rs2) := by
  simp [Statement, Fields.wellFormed, encodeFields, plainFields, formatOf, Format.roles, admits_point_ofNat]

theorem smul (neg : Bool) (rd rs1 : PReg) (rs2 : FReg) : Statement (.smul neg rd rs1 rs2) := by
  simp [Statement, Fields.wellFormed, encodeFields, plainFields, formatOf, Format.roles, admits_field_ofNat,
    admits_point_ofNat]

theorem pdec (tag : BitVec 8) (rd : PReg) (rs1 rs2 : FReg) : Statement (.pdec tag rd rs1 rs2) := by
  simp [Statement, Fields.wellFormed, encodeFields, plainFields, formatOf, Format.roles, admits_field_ofNat,
    admits_point_ofNat]

end Laws.FieldsFitFormat

end Sys2Proof
end

