-- ==== Sys2Proof/Tests/Slice0.lean ====
section
/-! SUPPORT. Tests. Every expected value is a vector of 95_test_vectors.md or rule R102, named in the comment above the
test. The last part shows, for every statement that has hypotheses, concrete values that meet them. -/

namespace Sys2Proof.Tests

set_option Elab.async false

open Sys2Proof Sys2Proof.Machine Sys2Proof.Spec

/-! ### Well-formedness: one ill-formed term per check -/

/-- EN-22: bits [31:29] not 0. -/
theorem test_wf_reserved_bits : (Fields.ofWord 0x20000101#32).wellFormed = false := by decide

/-- EN-21: a reserved opcode. -/
theorem test_wf_reserved_opcode : (Fields.ofWord 0x00000013#32).wellFormed = false := by decide

/-- EN-24: a field-register index 8. -/
theorem test_wf_field_index : (Fields.ofWord 0x00008101#32).wellFormed = false := by decide

/-- EN-30: a point-register index 4. -/
theorem test_wf_point_index : (Fields.ofWord 0x00040010#32).wellFormed = false := by decide

/-- EN-25: `rs2` must be 0 in format FR1. -/
theorem test_wf_zero_index : (Fields.ofWord 0x00010101#32).wellFormed = false := by decide

/-- EN-34: `imm8` must be 0 outside format PD. -/
theorem test_wf_imm8 : (Fields.ofWord 0x00100111#32).wellFormed = false := by decide

/-- EN-28: `neg` must be 0 in MADD. -/
theorem test_wf_neg : (Fields.ofWord 0x10010203#32).wellFormed = false := by decide

/-- EN-38, EN-39: a point command with `rd = 0` is ill-formed under the lock, any other command is not. -/
theorem test_wf_locked_destination :
    Instr.wellFormed true (.padd 0 0 1) = false ∧ Instr.wellFormed false (.padd 0 0 1) = true ∧
    Instr.wellFormed true (.padd 1 0 1) = true ∧ Instr.wellFormed true (.madd 2 0 1) = true := by decide

/-! ### Decoding: words written out field by field (rule R91) -/

/-- A word from its fields, most significant first: reserved 3, neg 1, imm8 8, rs2 4, rs1 4, rd 4, opcode 8 bits. -/
def bits (neg : BitVec 1) (imm8 : BitVec 8) (rs2 rs1 rd : BitVec 4) (opcode : BitVec 8) : Word32 :=
  0b000#3 ++ neg ++ imm8 ++ rs2 ++ rs1 ++ rd ++ opcode

theorem test_decode_norm :
    decode (bits 1#1 0#8 0b0000#4 0b0101#4 0b0110#4 0b00000001#8) = .ok (.norm true 6 5) := by decide

theorem test_decode_normw :
    decode (bits 0#1 0#8 0b0001#4 0b0000#4 0b0010#4 0b00000010#8) = .ok (.normw false 2 0 1) := by decide

theorem test_decode_madd :
    decode (bits 0#1 0#8 0b0001#4 0b0100#4 0b0010#4 0b00000011#8) = .ok (.madd 2 4 1) := by decide

theorem test_decode_msub :
    decode (bits 0#1 0#8 0b0000#4 0b0010#4 0b0100#4 0b00000100#8) = .ok (.msub 4 2 0) := by decide

theorem test_decode_mmul :
    decode (bits 0#1 0#8 0b0111#4 0b0011#4 0b0010#4 0b00000101#8) = .ok (.mmul 2 3 7) := by decide

theorem test_decode_minv :
    decode (bits 0#1 0#8 0b0000#4 0b0010#4 0b0011#4 0b00000110#8) = .ok (.minv 3 2) := by decide

theorem test_decode_mpow :
    decode (bits 0#1 0#8 0b0001#4 0b0110#4 0b0100#4 0b00000111#8) = .ok (.mpow 4 6 1) := by decide

theorem test_decode_padd :
    decode (bits 0#1 0#8 0b0001#4 0b0011#4 0b0010#4 0b00010000#8) = .ok (.padd 2 3 1) := by decide

theorem test_decode_smul :
    decode (bits 1#1 0#8 0b0111#4 0b0000#4 0b0011#4 0b00010001#8) = .ok (.smul true 3 0 7) := by decide

theorem test_decode_pdec :
    decode (bits 0#1 0b00000100#8 0b0011#4 0b0010#4 0b0001#4 0b00010010#8) = .ok (.pdec 0x04#8 1 2 3) := by decide

/-- EN-1 to EN-5. -/
theorem test_decode_legal_words :
    decode 0x10010202#32 = .ok (.normw true 2 0 1) ∧ decode 0x00070111#32 = .ok (.smul false 1 0 7) ∧
    decode 0x0FF77312#32 = .ok (.pdec 0xFF#8 3 7 7) ∧ decode 0x00432212#32 = .ok (.pdec 0x04#8 2 2 3) := by decide

/-- EN-20 to EN-25. -/
theorem test_decode_illegal_words :
    decode 0x00000000#32 = .error .reservedOpcode ∧ decode 0x000000FF#32 = .error .reservedOpcode ∧
    decode 0x80010203#32 = .error .reservedBits ∧ decode 0x00000901#32 = .error .indexOutOfRange ∧
    decode 0x00010101#32 = .error .mustBeZero ∧ decode 0x00100101#32 = .error .mustBeZero := by decide

/-- EN-27 to EN-37. -/
theorem test_decode_illegal_operands :
    decode 0x10000106#32 = .error .mustBeZero ∧ decode 0x10010203#32 = .error .mustBeZero ∧
    decode 0x00080203#32 = .error .indexOutOfRange ∧ decode 0x00010410#32 = .error .indexOutOfRange ∧
    decode 0x00100210#32 = .error .mustBeZero ∧ decode 0x00000411#32 = .error .indexOutOfRange ∧
    decode 0x10200012#32 = .error .mustBeZero ∧ decode 0x00077712#32 = .error .indexOutOfRange := by decide

/-- Little-endian bytes of a command word (rule R63); three bytes are no word. -/
theorem test_decode_bytes :
    decodeBytes [0x03, 0x02, 0x01, 0x00, 0xAA] = .ok (.madd 2 0 1, [0xAA]) ∧
    decodeBytes [0x03, 0x02, 0x01] = .error .truncated := by decide

theorem test_table_word : decodeTableWord 32 0x00010203 = some (.madd 2 0 1) ∧ decodeTableWord 32 0 = none := by decide

/-! ### One step of each command -/

/-- A block at reset but for the curve p, a, b, the registers f0 and f1, and the points pt1 and pt2. -/
def bench (p a b f0 f1 : Nat) (P Q : Point) : State :=
  { State.reset with
    cp := BitVec.ofNat 1024 p, ca := BitVec.ofNat 1024 a, cb := BitVec.ofNat 1024 b,
    f := #v[BitVec.ofNat 1024 f0, BitVec.ofNat 1024 f1, 0, 0, 0, 0, 0, 0],
    pt := #v[{ inf := false, x := 0, y := 0 }, P.toReg, Q.toReg, { inf := false, x := 0, y := 0 }] }

/-- The state of an outcome, when there is one. -/
def stateOf : Host.Outcome State Fault Refusal → Option State
  | .next t => some t
  | .fault _ => none
  | .refused _ => none

/-- The value of a field register and `STATUS.ERR` after an outcome. -/
def fieldAfter (o : Host.Outcome State Fault Refusal) (k : FReg) : Option (Nat × BitVec 8) :=
  (stateOf o).map fun t => (fieldOperand t k, t.statusErr)

/-- The value of a point register and `STATUS.ERR` after an outcome. -/
def pointAfter (o : Host.Outcome State Fault Refusal) (j : PReg) : Option (Point × BitVec 8) :=
  (stateOf o).map fun t => (pointOperand t j, t.statusErr)

/-- The curve E23 with two numbers in f0 and f1. -/
abbrev e23 (f0 f1 : Nat) : State := bench 23 1 1 f0 f1 (.affine 3 10) (.affine 9 7)

/-- FA-1. -/
theorem test_norm : fieldAfter (exec (.norm false 1 0) (e23 50 0)) 1 = some (4, 0) := by decide +kernel

/-- FA-4. -/
theorem test_norm_negative : fieldAfter (exec (.norm true 0 0) (e23 5 0)) 0 = some (18, 0) := by decide +kernel

/-- FA-13: 2^256 mod 23 at W = 256. -/
theorem test_normw : fieldAfter (exec (.normw false 2 0 1) (e23 0 1)) 2 = some (8, 0) := by decide +kernel

/-- FA-13: 2^32 mod 23 at W = 32. -/
theorem test_normw_w32 :
    fieldAfter (exec (.normw false 2 0 1) { e23 0 1 with cfg := { nw := 1 } }) 2 = some (12, 0) := by decide +kernel

/-- FA-14. -/
theorem test_madd : fieldAfter (exec (.madd 2 0 1) (e23 20 9)) 2 = some (6, 0) := by decide +kernel

/-- EX-3, rule R256: cp = 3 is refused with code 2 and f2 keeps its value. -/
theorem test_madd_small_modulus :
    fieldAfter (exec (.madd 2 0 1) (bench 3 1 1 20 9 .identity .identity)) 2 = some (0, 2) := by decide +kernel

/-- FA-17: a negative difference. -/
theorem test_msub : fieldAfter (exec (.msub 2 0 1) (e23 7 10)) 2 = some (20, 0) := by decide +kernel

/-- FA-22. -/
theorem test_mmul : fieldAfter (exec (.mmul 2 0 1) (e23 7 9)) 2 = some (17, 0) := by decide +kernel

/-- FA-24, and the destination is a source. -/
theorem test_mmul_unreduced : fieldAfter (exec (.mmul 0 0 1) (e23 30 32)) 0 = some (17, 0) := by decide +kernel

/-- FA-29. -/
theorem test_minv : fieldAfter (exec (.minv 3 0) (e23 5 0)) 3 = some (14, 0) := by decide +kernel

/-- FA-37: composite p, gcd 3; the destination keeps its value. -/
theorem test_minv_not_invertible :
    fieldAfter (exec (.minv 1 0) (bench 15 1 1 6 9 .identity .identity)) 1 = some (9, 3) := by decide +kernel

/-- FA-42. -/
theorem test_mpow : fieldAfter (exec (.mpow 4 0 1) (e23 5 6)) 4 = some (8, 0) := by decide +kernel

/-- FA-43: 0^0. -/
theorem test_mpow_zero : fieldAfter (exec (.mpow 4 0 1) (e23 0 0)) 4 = some (1, 0) := by decide +kernel

/-- PA-1. -/
theorem test_padd : pointAfter (exec (.padd 3 1 2) (e23 0 0)) 3 = some (.affine 17 20, 0) := by decide +kernel

/-- PA-8: a non-canonical x, dx = 0 with equal y. -/
theorem test_padd_noncanonical :
    pointAfter (exec (.padd 3 1 2) (bench 23 1 1 0 0 (.affine 3 10) (.affine 26 10))) 3 = some (.affine 0 0, 3) := by
  decide +kernel

/-- SM-3. -/
theorem test_smul : pointAfter (exec (.smul false 2 1 0) (e23 13 0)) 2 = some (.affine 1 7, 0) := by decide +kernel

/-- PD-7: y0 = 0 with an odd tag gives 0, not p. -/
theorem test_pdec_zero_root : pointAfter (exec (.pdec 0x03#8 1 0 0) (e23 4 0)) 1 = some (.affine 4 0, 0) := by
  decide +kernel

/-! ### Steps, the window, errors -/

/-- EX-1: the first command after reset, as the host places it. -/
theorem test_first_step :
    (stateOf (step (State.reset.withFetchWord 32 0x00010203))).map (fun t => (winRead t 0x010#12, t.errlog, t.seq)) =
      some (0x00000202#32, 4#32, .idle) := by decide +kernel

/-- EX-2: an illegal word is reported before the modulus. -/
theorem test_first_step_illegal :
    (stateOf (step (State.reset.withFetchWord 32 0))).map (fun t => (winRead t 0x010#12, t.errlog)) =
      some (0x00000802#32, 0x100#32) := by decide +kernel

/-- WN-15, WN-18: the host's CMD write is accepted in one step, and with the host silent the next completes MADD. -/
theorem test_accept_then_complete :
    (stateOf (Host.Core.run Sys2Proof.core 2 { e23 20 9 with host := [.winWrite 0x00C#12 .word 0x00010203#32] })).map
      (fun t => (fieldOperand t 2, winRead t 0x010#12)) = some (6, 2#32) := by decide +kernel

/-- EX-13: a locked destination; pt0 unchanged. -/
theorem test_locked_destination :
    pointAfter (exec (.smul false 0 0 1) { e23 13 1 with ctrlLock := true }) 0 = some (.affine 0 0, 8) := by
  decide +kernel

/-- WN-1. -/
theorem test_reset_reads :
    [0x000#12, 0x004#12, 0x008#12, 0x00C#12, 0x010#12, 0x014#12, 0x018#12, 0x01C#12].map (winRead State.reset) =
      [0x45434301#32, 0x00004808#32, 2#32, 0#32, 0#32, 0#32, 0#32, 0#32] := by decide +kernel

/-- WN-3. -/
theorem test_slot_write :
    fieldOperand (winWrite (e23 20 0) 0x404#12 0xDEADBEEF#32) 0 = 0xDEADBEEF00000014 ∧
    winRead (winWrite (e23 20 0) 0x404#12 0xDEADBEEF#32) 0x404#12 = 0xDEADBEEF#32 := by decide +kernel

/-- WN-5: word 8 of a slot at W = 256 is unmapped. -/
theorem test_slot_word_above_nw : winWrite (e23 20 0) 0x420#12 5#32 = e23 20 0 := by decide +kernel

/-- WN-10: PTINF under the lock. -/
theorem test_ptinf_locked :
    let t := winWrite { e23 0 0 with ctrlLock := true } 0x01C#12 0xFFFFFFFF#32
    (winRead t 0x01C#12, t.errlog) = (0xE#32, 0x400#32) := by decide +kernel

/-- WN-16: a dropped write while BUSY. -/
theorem test_busy_gate :
    let t := winWrite { e23 20 9 with seq := .busy } 0x400#12 99#32
    (fieldOperand t 0, t.errlog) = (20, 0x200#32) := by decide +kernel

/-- WN-17: a STATUS write while BUSY, and WN-7, a CTRL write that cannot clear or set LOCK. -/
theorem test_control_writes :
    winRead (winWrite (e23 0 0) 0x008#12 0xFFFFFFFC#32) 0x008#12 = 0#32 ∧
    winRead (winWrite { e23 0 0 with ctrlLock := true } 0x008#12 0#32) 0x008#12 = 1#32 := by decide +kernel

/-- SV-10. -/
theorem test_hex :
    decodeHex ['0', '0', 'f', 'f'] = .ok 255 ∧ decodeHex [] = .error .invalidHexInput ∧
    decodeHex ['G', '1'] = .error .invalidHexInput ∧ decodeHex ['-', '5'] = .error .invalidHexInput ∧
    encodeHex 7 4 = ['0', '0', '0', '7'] ∧ encodeHex 0x1AB 1 = ['1', 'A', 'B'] := by decide +kernel

/-! ### The default curve S256 (SV-1, SV-2) -/

/-- R100: WR of every control register (a write to ID and CONFIG is ignored, R65), and WAIT in its three cases: DONE = 1,
BUSY, and neither, where STATUS never shows DONE. -/
theorem test_wr_and_wait :
    perform (wrActions .inten 3#32) State.reset = .done () { State.reset with intenDone := true, intenErr := true } ∧
    perform (wrActions .status 2#32) { State.reset with statusDone := true, statusErr := 5 } = .done () State.reset ∧
    perform (wrActions .id 7#32) State.reset = .done () State.reset ∧
    runWait { State.reset with statusDone := true, statusErr := 5 } =
      .done 5 { State.reset with statusDone := true, statusErr := 5 } ∧
    runWait (withCommand State.reset 0#32) = .done 8 { withCommand State.reset 0#32 with
      statusErr := 8, errlog := 0x100#32, statusDone := true, seq := .idle } ∧
    runWait State.reset = .failed .pollsForEver State.reset := by decide +kernel

/-- R8, R224: at W = 32 a Y of 2^32 in the encoding of G stops BUILDCURVE with the window untouched. -/
theorem test_buildcurve_wide_value :
    let s := State.resetWith { nw := 1 }
    buildCurve ['1'] ['1'] ['1', '7'] ['1', 'C'] "04000000003100000000".toList true s = .failed .valueTooWide s := by
  decide +kernel

/-- The state in which a host sequence succeeds. -/
def endState {α : Type} : HostEnd α → Option State
  | .done _ t => some t
  | .failed _ _ => none

/-- R224 with the curve E23 and G = (3, 10) (PD-10): ca, cb, cp, cn, G, and CTRL with LOCK and STRICT. -/
theorem test_buildcurve :
    (endState (buildCurve ['1'] ['1'] ['1', '7'] ['1', 'C'] "04030A".toList true (State.resetWith { nw := 1 }))).map
      (fun t => (t.ca, t.cb, t.cp, t.cn, pointOperand t 0, winRead t 0x008#12)) =
      some (1, 1, 23, 28, .affine 3 10, 3#32) := by decide +kernel

/-- The modulus of S256. -/
abbrev p256 : Nat := 0xFFFFFFFFFFFFFFFFFFFFFFFFFFFFFFFFFFFFFFFFFFFFFFFFFFFFFFFEFFFFFC2F

/-- Gx of S256. -/
abbrev gx : Nat := 0x79BE667EF9DCBBAC55A06295CE870B07029BFCDB2DCE28D959F2815B16F81798

/-- Gy of S256. -/
abbrev gy : Nat := 0x483ADA7726A3C4655DA4FBFC0E1108A8FD17B448A68554199C47D08FFB10D4B8

/-- PD-20: decompressing `02 || Gx` under STRICT. -/
theorem test_pdec_s256 :
    pointAfter (exec (.pdec 0x02#8 1 0 0) (bench p256 0 7 gx 0 .identity .identity)) 1 =
      some (.affine gx gy, 0) := by decide +kernel

/-- SV-2: 2G. -/
theorem test_smul_s256 :
    pointAfter (exec (.smul false 2 1 0) (bench p256 0 7 2 0 (.affine gx gy) .identity)) 2 =
      some (.affine 0xC6047F9441ED7D6D3045406E95C07CD85C778E4B8CEF3CA7ABAC09B95C709EE5
        0x1AE168FEA63DC339A3C58419466CEAEEF7F632653266D0E1236431A950CFE52A, 0) := by decide +kernel

/-! ### Witnesses: for every statement with hypotheses, values that meet them, clause by clause -/

/-- Every command completes in every state, so a hypothesis `exec i s = next t` is always met by some t. -/
theorem exec_next (i : Instr) (s : State) : ∃ t, exec i s = .next t :=
  let ⟨t, h, _⟩ := exec_cases i s; ⟨t, h⟩

theorem witness_NormReducesSignedMagnitude :
    3 < (bench 4 1 1 5 2 .identity .identity).cp.toNat ∧ (bench 3 1 1 5 2 .identity .identity).cp.toNat ≤ 3 := by
  decide +kernel

theorem witness_NormwReducesDoubleWidth :
    3 < (bench 4 1 1 5 2 .identity .identity).cp.toNat ∧ (bench 0 1 1 5 2 .identity .identity).cp.toNat ≤ 3 := by
  decide +kernel

theorem witness_MaddAddsModP :
    3 < (bench 4 1 1 3 3 .identity .identity).cp.toNat ∧ (bench 3 1 1 3 3 .identity .identity).cp.toNat ≤ 3 := by
  decide +kernel

theorem witness_MsubSubtractsModP :
    3 < (bench 4 1 1 2 3 .identity .identity).cp.toNat ∧ (bench 1 1 1 2 3 .identity .identity).cp.toNat ≤ 3 := by
  decide +kernel

theorem witness_MmulMultipliesModP :
    3 < (bench 4 1 1 3 3 .identity .identity).cp.toNat ∧ (bench 2 1 1 3 3 .identity .identity).cp.toNat ≤ 3 := by
  decide +kernel

/-- FA-40: 2 has no inverse modulo 4; 3 has. -/
theorem witness_MinvWritesTheUniqueInverse :
    let s := bench 4 1 1 3 2 .identity .identity
    3 < s.cp.toNat ∧ Nat.gcd (fieldOperand s 0 % s.cp.toNat) s.cp.toNat = 1 ∧
      Nat.gcd (fieldOperand s 1 % s.cp.toNat) s.cp.toNat ≠ 1 ∧
      (bench 3 1 1 3 2 .identity .identity).cp.toNat ≤ 3 := by decide +kernel

theorem witness_MpowWritesThePower :
    3 < (bench 4 1 1 0 0 .identity .identity).cp.toNat ∧ (bench 3 1 1 0 0 .identity .identity).cp.toNat ≤ 3 := by
  decide +kernel

/-- The bench is not locked. -/
theorem bench_unlocked (p a b f0 f1 : Nat) (P Q : Point) (rd : PReg) : ¬ Locked (bench p a b f0 f1 P Q) rd := by
  rintro ⟨h, -⟩; cases h

/-- The bench with the lock set locks `pt0` and no other destination. -/
theorem locked_pt0 : Locked { e23 0 0 with ctrlLock := true } 0 ∧ ¬ Locked { e23 0 0 with ctrlLock := true } 1 := by
  simp [Locked]

/-- PA-1, PA-4, EX-13: an addition, a doubling that fails, a small modulus, a locked destination. -/
theorem witness_PaddFollowsTheCaseAnalysis :
    (pointOperand (e23 0 0) 1 = .affine 3 10 ∧ pointOperand (e23 0 0) 2 = .affine 9 7 ∧ 3 < (e23 0 0).cp.toNat) ∧
    ¬ Locked (e23 0 0) 3 ∧ ¬ AddFails 23 (.affine 3 10) (.affine 9 7) ∧ AddFails 23 (.affine 4 0) (.affine 4 0) ∧
    ¬ Locked (bench 3 1 1 0 0 .identity .identity) 3 ∧ (bench 3 1 1 0 0 .identity .identity).cp.toNat ≤ 3 ∧
    Locked { e23 0 0 with ctrlLock := true } 0 :=
  ⟨by decide +kernel, bench_unlocked _ _ _ _ _ _ _ _, by change ¬ (_ ∨ _); decide, by change _ ∨ _; decide, bench_unlocked _ _ _ _ _ _ _ _,
    by decide +kernel, locked_pt0.1⟩

/-- PA-3: 2 * (3, 10) = (7, 12) on E23, by the relation of the statement. -/
theorem double_e23 : MultipleOf 23 1 (.affine 3 10) 2 (.affine 7 12) := by
  refine .double (k := 1) .one (.inr (.inl ⟨rfl, rfl, 15, ⟨by decide, by decide⟩, 7, 12, rfl, by decide, by decide⟩))

/-- Double-and-add starts at 1. -/
theorem not_multiple_zero {p a : Nat} {P r : Point} : ¬ MultipleOf p a P 0 r := by
  intro h
  generalize hk : 0 = k at h
  induction h with
  | one => omega
  | double h1 _ ih => exact ih (by omega)
  | doubleAdd _ _ _ _ => omega

/-- The multiple for 1 is P. -/
theorem multiple_one {p a : Nat} {P r : Point} (h : MultipleOf p a P 1 r) : r = P := by
  generalize hk : 1 = k at h
  cases h with
  | one => rfl
  | double h1 _ => omega
  | @doubleAdd k _ _ _ h1 _ _ =>
    obtain rfl : k = 0 := by omega
    exact absurd h1 not_multiple_zero

/-- SM-6: doubling the 2-torsion point (4, 0) has no result. -/
theorem no_double_torsion (r : Point) : ¬ MultipleOf 23 1 (.affine 4 0) 2 r := by
  intro h
  generalize hk : 2 = k at h
  cases h with
  | one => omega
  | @double k q _ h1 h2 =>
    obtain rfl : k = 1 := by omega
    obtain rfl := multiple_one h1
    rcases h2 with ⟨-, h, -⟩ | ⟨-, -, u, ⟨-, h⟩, -⟩ | ⟨-, h, -⟩
    · exact h rfl
    · simp at h
    · exact h ⟨rfl, rfl⟩
  | doubleAdd h1 _ _ => omega

/-- SM-1, SM-2 (as k = 2), SM-6, SM-13, the small modulus, the locked destination. -/
theorem witness_SmulComputesDoubleAndAdd :
    (3 < (e23 0 2).cp.toNat ∧ fieldOperand (e23 0 2) 0 = 0 ∧ fieldOperand (e23 0 2) 1 ≠ 0) ∧
    (∀ rd, ¬ Locked (e23 0 2) rd) ∧ pointOperand (e23 0 2) 1 = .affine 3 10 ∧
    MultipleOf 23 1 (.affine 3 10) 2 (.affine 7 12) ∧ (∀ r, ¬ MultipleOf 23 1 (.affine 4 0) 2 r) ∧
    pointOperand (bench 23 1 1 0 2 (.affine 4 0) .identity) 1 = .affine 4 0 ∧
    (bench 3 1 1 0 2 .identity .identity).cp.toNat ≤ 3 ∧ Locked { e23 0 0 with ctrlLock := true } 0 :=
  ⟨by decide +kernel, bench_unlocked _ _ _ _ _ _ _, by decide +kernel, double_e23, no_double_torsion,
    by decide +kernel, by decide +kernel, locked_pt0.1⟩

/-- PD-10, PD-11: a point on the curve, a point off it under STRICT, STRICT = 0. -/
theorem witness_PdecUncompressedTakesTheNumbersAsGiven :
    (∀ rd, ¬ Locked (e23 3 10) rd) ∧ 3 < (e23 3 10).cp.toNat ∧ OnCurve 23 1 1 3 10 ∧ ¬ OnCurve 23 1 1 3 11 ∧
    (e23 3 11).ctrlStrict = true ∧ ({ e23 3 11 with ctrlStrict := false } : State).ctrlStrict = false :=
  ⟨bench_unlocked _ _ _ _ _ _ _, by decide +kernel, by unfold OnCurve; decide, by unfold OnCurve; decide,
    by decide +kernel, rfl⟩

/-- PD-1, PD-2 (root 13 of 8), PD-8 (9 is no root of 11). -/
theorem witness_PdecCompressedRecoversTheRoot :
    (∀ rd, ¬ Locked (e23 3 2) rd) ∧ (e23 3 2).cp.toNat = 23 ∧ 23 % 4 = 3 ∧
    fieldOperand (e23 3 2) 0 = 3 ∧ fieldOperand (e23 3 2) 1 = 2 ∧
    ((8 : Nat) : Int) = ((3 : Int) ^ 3 + 1 * 3 + 1) % 23 ∧ 8 ^ ((23 + 1) / 4) % 23 = 13 ∧ 13 * 13 % 23 = 8 ∧
    13 % 2 ≠ (2#8).toNat % 2 ∧ 13 % 2 = (3#8).toNat % 2 ∧
    ((11 : Nat) : Int) = ((2 : Int) ^ 3 + 1 * 2 + 1) % 23 ∧ 11 ^ ((23 + 1) / 4) % 23 = 9 ∧ 9 * 9 % 23 ≠ 11 :=
  ⟨bench_unlocked _ _ _ _ _ _ _, by decide +kernel⟩

/-- PD-13, PD-14, EX-5, EX-13. -/
theorem witness_PdecReportsTheFirstError :
    Locked { e23 0 0 with ctrlLock := true } 0 ∧ (∀ rd, ¬ Locked (bench 17 2 2 5 0 .identity .identity) rd) ∧
    (bench 3 1 1 0 0 .identity .identity).cp.toNat ≤ 3 ∧ 3 < (bench 17 2 2 5 0 .identity .identity).cp.toNat ∧
    (bench 17 2 2 5 0 .identity .identity).cp.toNat % 4 ≠ 3 ∧ (0x05#8 ≠ 0x02#8 ∧ 0x05#8 ≠ 0x03#8 ∧ 0x05#8 ≠ 0x04#8) :=
  ⟨locked_pt0.1, bench_unlocked _ _ _ _ _ _ _, by decide +kernel⟩

theorem witness_EncodeOfDecodeIsTheWord : decode 0x00410112#32 = .ok (.pdec 0x04#8 1 0 1) := by decide

theorem witness_DecodeAgreesWithMatchAndMask : (⟨"PDEC", 0x00000012#32, 0xF0088CFF#32⟩ : OpcodeRow) ∈ opcodeTable := by
  decide

/-- A running command with nothing left of its latency, and one with host actions left but none pending. -/
theorem witness_StepRunsTheDecodedCommand :
    CompletesNow (State.reset.withFetchWord 32 0x00010203) ∧
    CompletesNow { State.reset.withFetchWord 32 0x00010203 with wait := 5 } ∧
    decode (State.reset.withFetchWord 32 0x00010203).cmd = .ok (.madd 2 0 1) :=
  ⟨⟨by decide, .inl (by decide)⟩, ⟨by decide, .inr (by decide)⟩, by decide⟩

/-- EX-2, EX-13, EX-1. -/
theorem witness_CommonChecksComeFirst :
    CompletesNow (State.reset.withFetchWord 32 0) ∧ IllegalWord (State.reset.withFetchWord 32 0) 0#32 ∧
    IllegalWord { e23 0 0 with ctrlLock := true } 0x00010011#32 ∧
    ¬ IllegalWord (State.reset.withFetchWord 32 0x00010203) 0x00010203#32 ∧
    (State.reset.withFetchWord 32 0x00010203).cp.toNat ≤ 3 :=
  ⟨⟨by decide, .inl (by decide)⟩, .inl (by decide), .inr (by decide +kernel),
    by unfold IllegalWord; decide, by decide +kernel⟩

theorem witness_StepTakesTheHostActionOtherwise :
    ¬ CompletesNow State.reset ∧ State.reset.host = [] ∧
    ¬ CompletesNow { State.reset.withFetchWord 32 0 with wait := 1, host := [.observeIrq] } := by
  refine ⟨?_, rfl, ?_⟩ <;> unfold CompletesNow <;> decide

theorem witness_RunningCommandCompletes :
    let s := { State.reset.withFetchWord 32 0 with
      wait := 2, host := [.observeIrq, .winRead 0x010#12 .word, .winWrite 0x00C#12 .word 5#32] }
    s.seq = .busy ∧ ∀ a ∈ s.host, a.aligned = true ∧ a ≠ .reset := by decide

/-- Reset with W = 32, 256 and 1024 is legal. -/
theorem witness_ResetSatisfiesInv : (Config.mk 1).legal ∧ Config.default.legal ∧ (Config.mk 32).legal := by decide

/-- A busy block on E23 with a host that will read STATUS. -/
def busyBench : State :=
  { e23 20 9 with cmd := 0x00010203#32, seq := .busy, wait := 1, host := [.winRead 0x010#12 .word] }

theorem busyBench_inv : busyBench.Inv where
  cfgLegal := by decide +kernel
  fieldFits := by decide +kernel
  pointFits := by decide +kernel
  curveFits := by decide +kernel
  busyClear := by decide +kernel
  errDone := by decide +kernel
  errCode := by decide +kernel
  logReserved := by decide +kernel

theorem witness_SafeStatesNeverStop : busyBench.Safe := ⟨busyBench_inv, by decide +kernel⟩

theorem witness_StepKeepsInv : busyBench.Inv ∧ ∃ t, step busyBench = .next t :=
  ⟨busyBench_inv, _, rfl⟩

theorem witness_StepKeepsTheParameter : ∃ t, step busyBench = .next t := ⟨_, rfl⟩

/-- MADD f2, f0, f1 writes f2, no other field register and no point register; 0x47C and 0x580 are outside f2's slot. -/
theorem witness_CommandsChangeOnlyTheirDestination :
    (∃ t, exec (.madd 2 0 1) (e23 20 9) = .next t) ∧ WritesField (.madd 2 0 1) 2 ∧ ¬ WritesField (.madd 2 0 1) 1 ∧
    (∀ j, ¬ WritesPoint (.madd 2 0 1) j) ∧ WritesPoint (.padd 3 1 2) 3 ∧ ¬ WritesPoint (.padd 3 1 2) 2 ∧
    (∀ k, WritesField (.madd 2 0 1) k → 0x47C < 0x400 + 0x80 * k.val ∨ 0x480 + 0x80 * k.val ≤ 0x47C) := by
  refine ⟨exec_next _ _, ?_, ?_, ?_, ?_, ?_, ?_⟩ <;> simp [WritesField, WritesPoint]

/-- An end without error and one with it. -/
theorem witness_EveryCommandCompletes :
    (stateOf (exec (.madd 2 0 1) (e23 20 9))).map (·.statusErr) = some 0 ∧
    (stateOf (exec (.madd 2 0 1) State.reset)).map (·.statusErr) = some 2 := by decide +kernel

theorem witness_ErrorsArePrecise : ∃ t, exec (.madd 2 0 1) State.reset = .next t ∧ t.statusErr ≠ 0 := by
  obtain ⟨t, h⟩ := exec_next (.madd 2 0 1) State.reset
  have e := witness_EveryCommandCompletes.2
  rw [h] at e
  refine ⟨t, h, fun h0 => ?_⟩
  simp [stateOf, h0] at e

theorem witness_FieldResultsAreCanonical :
    WritesField (.madd 2 0 1) 2 ∧ ∃ t, exec (.madd 2 0 1) (e23 20 9) = .next t ∧ t.statusErr = 0 := by
  obtain ⟨t, h⟩ := exec_next (.madd 2 0 1) (e23 20 9)
  have e := witness_EveryCommandCompletes.1
  rw [h] at e
  exact ⟨by simp [WritesField], t, h, by simpa [stateOf] using e⟩

/-- `ca = 24` is not a residue modulo 23. -/
theorem witness_CoefficientsEnterModuloP :
    3 < (bench 23 24 1 0 0 (.affine 3 10) (.affine 9 7)).cp.toNat ∧
    ∃ t, exec (.padd 3 1 1) (bench 23 24 1 0 0 (.affine 3 10) (.affine 9 7)) = .next t :=
  ⟨by decide +kernel, exec_next _ _⟩

theorem witness_NoCommandReadsTheOrder : ∃ t, exec (.smul false 2 1 0) (e23 13 0) = .next t := exec_next _ _

theorem witness_FieldCommandLaws : 3 < (e23 30 1).cp.toNat ∧ fieldOperand (e23 30 1) 1 = 1 := by decide +kernel

/-- FA-24: 30 and 7 have equal residues, the exponent is the same register. -/
theorem witness_SourcesEnterModuloP :
    fieldOperand (e23 30 7) 0 % (e23 30 7).cp.toNat = fieldOperand (e23 30 7) 1 % (e23 30 7).cp.toNat := by
  decide +kernel

theorem witness_MinvLaws :
    (1 : FReg) ≠ 0 ∧ 3 < (e23 28 0).cp.toNat ∧
    Nat.gcd (fieldOperand (e23 28 0) 0 % (e23 28 0).cp.toNat) (e23 28 0).cp.toNat = 1 := by decide +kernel

/-- PA-5, PA-6. -/
theorem witness_PaddIdentityLaw :
    let s := bench 23 1 1 0 0 .identity (.affine 3 10)
    ¬ Locked s 3 ∧ 3 < s.cp.toNat ∧ pointOperand s 1 = .identity :=
  ⟨bench_unlocked _ _ _ _ _ _ _ _, by decide +kernel, by decide +kernel⟩

/-- SM-7, SM-2, SM-6. -/
theorem witness_SmulSpecialOperands :
    (∀ rd, ¬ Locked (bench 23 1 1 1 2 .identity (.affine 4 0)) rd) ∧
    (let s := bench 23 1 1 1 2 .identity (.affine 4 0)
    3 < s.cp.toNat ∧ fieldOperand s 0 = 1 ∧ 2 ≤ fieldOperand s 1 ∧ pointOperand s 1 = .identity ∧
      pointOperand s 2 = .affine 4 0) :=
  ⟨bench_unlocked _ _ _ _ _ _ _, by decide +kernel⟩

/-- E23 and its points (3, 10) and (4, 0) as Mathlib has them: the hypotheses of both clauses are met. -/
theorem witness_PaddIsTheCurvesGroupLaw :
    Nat.Prime 23 ∧ 3 < 23 ∧ (e23 0 0).cp.toNat = 23 ∧ (e23 0 0).ca.toNat = 1 ∧
    (WeierstrassCurve.mk (0 : ZMod 23) 0 0 (1 : Nat) (1 : Nat)).toAffine.Nonsingular 3 10 ∧
    (WeierstrassCurve.mk (0 : ZMod 23) 0 0 (1 : Nat) (1 : Nat)).toAffine.Nonsingular 4 0 ∧
    pointOperand (e23 0 0) 1 = .affine (3 : ZMod 23).val (10 : ZMod 23).val := by
  refine ⟨by norm_num, by norm_num, by decide +kernel, by decide +kernel, ?_, ?_, by decide +kernel⟩ <;>
  · rw [WeierstrassCurve.Affine.nonsingular_iff, WeierstrassCurve.Affine.equation_iff]
    decide

/-- PD-1 and PD-10 for the point (3, 10); f2 holds no y. -/
theorem witness_PdecInvertsCompress :
    (∀ rd, ¬ Locked (e23 3 10) rd) ∧ (e23 3 10).cp.toNat = 23 ∧ fieldOperand (e23 3 10) 0 = 3 ∧
    fieldOperand (e23 3 10) 1 = 10 ∧ fieldOperand (e23 3 10) 2 ≠ 10 ∧ OnCurve 23 1 1 3 10 ∧ Nat.Prime 23 ∧ 23 % 4 = 3 :=
  ⟨bench_unlocked _ _ _ _ _ _ _, by decide +kernel, by decide +kernel, by decide +kernel, by decide +kernel,
    by unfold OnCurve; decide, by norm_num, by decide⟩

theorem witness_StrictPdecWritesPointsOnTheCurve :
    (e23 26 33).ctrlStrict = true ∧
    pointAfter (exec (.pdec 0x04#8 1 0 1) (e23 26 33)) 1 = some (.affine 26 33, 0) := by decide +kernel

/-- W = 32 and W = 1024 at their last words, and the offsets where mapped and unmapped meet at W = 256. -/
theorem witness_WindowReadsTheRegisterMap :
    (Config.mk 32).nw ≤ 32 ∧ 0 < (Config.mk 1).nw ∧ 31 < (Config.mk 32).nw ∧
    (∀ n ∈ [0x020, 0x07C, 0x0A0, 0x0FC, 0x280, 0x3FC, 0xBA0, 0xBFC, 0xC00, 0xFFC], n % 4 = 0 ∧ Unmapped 8 n) ∧
    (∀ n ∈ [0x000, 0x01C, 0x080, 0x09C, 0x21C, 0x400, 0xB9C], ¬ Unmapped 8 n) ∧ (0xFFC#12).toNat % 4 = 0 := by
  unfold Unmapped; decide

theorem witness_WindowReadsTheControlRegisters :
    (State.resetWith { nw := 32 }).cfg.nw ≤ 32 ∧ busyBench.Inv ∧ (0 = 0 ∨ 11 ≤ 0) ∧ (11 = 0 ∨ 11 ≤ 11) :=
  ⟨by decide, busyBench_inv, by decide, by decide⟩

theorem witness_ReadOnlyAndUnmappedIgnoreWrites : Unmapped State.reset.cfg.nw 0x0A0 ∧ 0x0A0 % 4 = 0 := by
  unfold Unmapped; decide

theorem witness_StatusIntenErrlogWrites : (2#32).getLsbD 1 = true ∧ (0xFFFFFFFD#32).getLsbD 1 = false := by decide

theorem witness_BusyGateDropsWrites :
    busyBench.seq = .busy ∧
    (∀ n ∈ [0x008, 0x00C, 0x01C, 0x080, 0x09C, 0x400, 0xB9C], n % 4 = 0 ∧ n < 0x1000 ∧ ¬ Unmapped 8 n ∧
      n ∉ [0x000, 0x004, 0x010, 0x014, 0x018]) := by
  unfold Unmapped; decide +kernel

theorem witness_CmdWriteAcceptsInIdle : State.reset.seq = .idle ∧ ∃ t, t = latchCommand State.reset 0#32 :=
  ⟨rfl, _, rfl⟩

theorem witness_CtrlWriteSetsLockAndStrict :
    State.reset.seq = .idle ∧ (1#32).getLsbD 0 = true ∧ (0xFFFFFFFE#32).getLsbD 0 = false := by decide

/-- The lock open, the lock shut with a bit 0 that would change G's flag, and with one that would not. -/
theorem witness_PtinfWriteSetsTheFlags :
    let s := { e23 0 0 with ctrlLock := true }
    s.seq = .idle ∧ s.ctrlLock = true ∧ (e23 0 0).ctrlLock = false ∧ (1#32).getLsbD 0 ≠ (s.pt.get 0).inf ∧
      (0xE#32).getLsbD 0 = (s.pt.get 0).inf := by decide +kernel

theorem witness_SlotWriteReplacesOneWord :
    (e23 0 0).seq = .idle ∧ (e23 0 0).cfg.nw ≤ 32 ∧ 0 < (e23 0 0).cfg.nw ∧ 7 < (e23 0 0).cfg.nw ∧
    (e23 0 0).ctrlLock = false ∧ (1 : PReg) ≠ 0 := by decide +kernel

theorem witness_LockGateDropsWrites :
    let s := { e23 0 0 with ctrlLock := true }
    s.seq = .idle ∧ s.ctrlLock = true ∧
    (∀ n ∈ [0x080, 0x09C, 0x21C, 0x800, 0x89C], n % 4 = 0 ∧ n % 128 / 4 < s.cfg.nw ∧
      ((0x080 ≤ n ∧ n < 0x280) ∨ (0x800 ≤ n ∧ n < 0x900))) := by decide +kernel

theorem witness_OnlyAlignedWordAccessesAreTaken :
    AccessWidth.byte ≠ .word ∧ (0x401#12).toNat % 4 ≠ 0 ∧ (0xFFC#12).toNat % 4 = 0 := by decide

/-- The first and the last byte of a slot at W = 256 and at W = 1024. -/
theorem witness_SlotBytesAreLittleEndian :
    State.reset.cfg.nw ≤ 32 ∧ 0 < 4 * State.reset.cfg.nw ∧ 31 < 4 * State.reset.cfg.nw ∧
    (State.resetWith { nw := 32 }).cfg.nw ≤ 32 ∧ 127 < 4 * (State.resetWith { nw := 32 }).cfg.nw := by decide

/-- A host that reads next, and a completion with a Reset first in the host's list. -/
theorem witness_LockFreezesTheCurve :
    (let s := { busyBench with ctrlLock := true }
    s.ctrlLock = true ∧ s.host.head? ≠ some .reset ∧ ∃ t, step s = .next t) ∧
    (let s := { busyBench with ctrlLock := true, wait := 0, host := [.reset] }
    s.ctrlLock = true ∧ s.host.head? = some .reset ∧ CompletesNow s ∧ ∃ t, step s = .next t) :=
  ⟨⟨rfl, by decide +kernel, _, rfl⟩, rfl, rfl, ⟨rfl, .inl rfl⟩, _, rfl⟩

theorem witness_HostCannotDisturbARunningCommand :
    busyBench.seq = .busy ∧ HostAction.winWrite 0x400#12 .word 99#32 ≠ .reset ∧
    ∃ t, hostAction (.winWrite 0x400#12 .word 99#32) busyBench = .next t ∧
      (∃ u, exec (.madd 2 0 1) busyBench = .next u) ∧ ∃ v, exec (.madd 2 0 1) t = .next v :=
  ⟨by decide +kernel, by decide, _, rfl, exec_next _ _, exec_next _ _⟩

theorem witness_IrqFollowsStatusAndEnables :
    State.reset.seq = .idle ∧ (∃ t, hostAction .reset State.reset = .next t) ∧ (0xFFFFFFFE#32).getLsbD 1 = true ∧
    (0xFFFFFFFC#32).getLsbD 0 = false ∧ (0xFFFFFFFC#32).getLsbD 1 = false :=
  ⟨rfl, ⟨_, rfl⟩, by decide⟩

theorem witness_SetLoadsAWholeRegister :
    (e23 20 0).seq = .idle ∧ (e23 20 0).cfg.legal ∧ ((e23 20 0).f.get 0).toNat < 2 ^ (e23 20 0).cfg.W ∧
    2 ^ 256 - 1 < 2 ^ (e23 20 0).cfg.W ∧ 2 ^ (e23 20 0).cfg.W ≤ 2 ^ 256 := by decide +kernel

theorem witness_RunExecutesTheCommand :
    State.reset.seq = .idle ∧ ∃ u, u = latchCommand State.reset (encode (.madd 2 0 1)) ∧
      ∃ t, exec (.madd 2 0 1) { u with wait := Config.latency u } = .next t :=
  ⟨rfl, _, rfl, exec_next _ _⟩

end Sys2Proof.Tests
end

section
/-! SUPPORT. Frames of the window's writes: which fields of the state a host action leaves alone. -/

namespace Sys2Proof.Machine

variable (s : State)

@[simp] theorem writeSlot_cfg (r : SlotReg) (v : Word) : (writeSlot s r v).cfg = s.cfg := by cases r <;> rfl
@[simp] theorem writeSlot_ctrlLock (r : SlotReg) (v : Word) : (writeSlot s r v).ctrlLock = s.ctrlLock := by
  cases r <;> rfl
@[simp] theorem writeSlot_seq (r : SlotReg) (v : Word) : (writeSlot s r v).seq = s.seq := by cases r <;> rfl

@[simp] theorem writePtinf_cfg (v : Word32) : (writePtinf s v).cfg = s.cfg := by
  simp only [writePtinf]; split <;> [split; skip] <;> rfl

@[simp] theorem writeSlotWord_cfg (r : SlotReg) (m : Nat) (v : Word32) : (writeSlotWord s r m v).cfg = s.cfg := by
  unfold writeSlotWord; split <;> simp

@[simp] theorem writeStatus_cfg (v : Word32) : (writeStatus s v).cfg = s.cfg := by
  unfold writeStatus; split <;> rfl

/-- No window write changes W (rule R7). -/
@[simp] theorem winWrite_cfg (off : BitVec 12) (v : Word32) : (winWrite s off v).cfg = s.cfg := by
  rcases winWrite_cases s off v with h | h | h | h | ⟨-, h⟩ | ⟨-, h | h | h | ⟨r, m, -, -, h⟩⟩ <;> simp [h]

/-- A host action keeps W, Reset included (rule R7, log 8). -/
theorem hostAction_cfg {a : HostAction} {s t : State} (h : hostAction a s = .next t) : t.cfg = s.cfg := by
  rcases hostAction_cases h with ⟨x, rfl⟩ | ⟨off, v, -, rfl⟩ | ⟨-, rfl⟩
  · rfl
  · exact winWrite_cfg s off v
  · rfl

/-- A command keeps W (rules R7, R27). -/
theorem exec_cfg {i : Instr} {s t : State} (h : exec i s = .next t) : t.cfg = s.cfg := by
  obtain ⟨u, hu, hc⟩ := exec_cases i s
  cases h.symm.trans hu
  rcases hc with ⟨-, rd, v, -, -, rfl⟩ | ⟨-, rd, r, -, -, -, rfl⟩ | ⟨e, rfl⟩ <;> rfl

end Sys2Proof.Machine
end

section
/-! SUPPORT. The invariant of Safety.lean, one rule per operation of the state. -/

namespace Sys2Proof.Machine

variable {s : State}

theorem toNat_ofNat_le (w v : Nat) : (BitVec.ofNat w v).toNat ≤ v := by
  rw [BitVec.toNat_ofNat]
  exact Nat.mod_le _ _

theorem zero_toNat_lt {b : Nat} (hb : 0 < b) : (0 : Word).toNat < b := by
  rwa [BitVec.ofNat_eq_ofNat, BitVec.toNat_zero]

/-- The bits of `ERRLOG` that the block can set are 2 to 10 (rules R46, R252). -/
theorem logBit_unreserved {n : Nat} (h2 : 2 ≤ n) (h10 : n ≤ 10) : logBit n &&& ~~~0x7FC#32 = 0 := by
  have key : ∀ k : Fin 11, 2 ≤ k.val → logBit k &&& ~~~0x7FC#32 = 0 := by decide
  exact key ⟨n, by omega⟩ h2

theorem ErrKind.code_range (e : ErrKind) : 1 ≤ e.code ∧ e.code ≤ 8 := by cases e <;> decide

theorem ErrKind.code_eq_one {e : ErrKind} : e.code = 1 ↔ e = .invalidHexInput := by cases e <;> decide

namespace State.Inv

/-- The reset state of a legal W has every register 0 (rule R49). -/
theorem resetWith {cfg : Config} (h : cfg.legal) : (State.resetWith cfg).Inv where
  cfgLegal := h
  fieldFits i := by
    rw [fieldReg_resetWith]
    exact zero_toNat_lt (Nat.two_pow_pos _)
  pointFits j := by
    rw [pointReg_resetWith]
    exact ⟨zero_toNat_lt (Nat.two_pow_pos _), zero_toNat_lt (Nat.two_pow_pos _)⟩
  curveFits := by
    have h0 := zero_toNat_lt (Nat.two_pow_pos cfg.W)
    exact ⟨h0, h0, h0, h0⟩
  busyClear h := by cases h
  errDone h := absurd rfl h
  errCode := by simp [State.resetWith]
  logReserved := by simp [State.resetWith]

theorem setField (h : s.Inv) (i : FReg) {v : Word} (hv : v.toNat < 2 ^ s.cfg.W) : (s.setField i v).Inv where
  __ := h
  fieldFits k := by
    rw [fieldReg_setField]
    split
    · exact hv
    · exact h.fieldFits k

theorem setPoint (h : s.Inv) (j : PReg) {r : PointReg} (hx : r.x.toNat < 2 ^ s.cfg.W) (hy : r.y.toNat < 2 ^ s.cfg.W) :
    (s.setPoint j r).Inv where
  __ := h
  pointFits k := by
    rw [pointReg_setPoint]
    split
    · exact ⟨hx, hy⟩
    · exact h.pointFits k

theorem setInf (h : s.Inv) (j : PReg) (b : Bool) : (s.setInf j b).Inv :=
  h.setPoint j (h.pointFits j).1 (h.pointFits j).2

theorem logSet (h : s.Inv) {n : Nat} (h2 : 2 ≤ n) (h10 : n ≤ 10) : (s.logSet n).Inv where
  __ := h
  logReserved := by
    rw [logSet_errlog, BitVec.and_or_distrib_right, h.logReserved, logBit_unreserved h2 h10]; rfl

theorem finish (h : s.Inv) {c : Nat} (h8 : c ≤ 8) (h1 : c ≠ 1) : (s.finish c).Inv where
  __ := h
  busyClear hb := by cases hb
  errDone _ := rfl
  errCode := by
    rw [finish_statusErr, BitVec.toNat_ofNat, Nat.mod_eq_of_lt (by omega)]
    exact ⟨h8, h1⟩

/-- Taking an error of the block keeps the invariant; InvalidHexInput is the host's alone (rule R252). -/
theorem takeError (h : s.Inv) {e : ErrKind} (he : e ≠ .invalidHexInput) : (takeError e s).Inv := by
  have hc := e.code_range
  have h1 : e.code ≠ 1 := fun h1 => he (ErrKind.code_eq_one.1 h1)
  exact (h.logSet (by omega) (by omega)).finish hc.2 h1

theorem acknowledge (h : s.Inv) : (acknowledge s).Inv where
  __ := h
  busyClear _ := ⟨rfl, rfl⟩
  errDone hn := absurd rfl hn
  errCode := by simp

theorem acceptCommand (h : s.Inv) (c : Word32) : (acceptCommand s c).Inv where
  __ := h
  busyClear _ := ⟨rfl, rfl⟩
  errDone hn := absurd rfl hn
  errCode := by simp

theorem writeErrlog (h : s.Inv) (v : Word32) : (writeErrlog s v).Inv where
  __ := h
  logReserved := by
    rw [writeErrlog_errlog, BitVec.and_assoc, BitVec.and_comm (~~~v), ← BitVec.and_assoc, h.logReserved]
    exact BitVec.zero_and

theorem writeStatus (h : s.Inv) (v : Word32) : (writeStatus s v).Inv := by
  unfold Machine.writeStatus
  split
  · exact h.acknowledge
  · exact h

theorem writePtinf (h : s.Inv) (v : Word32) : (writePtinf s v).Inv := by
  have ht := ((h.setInf 1 (v.getLsbD 1)).setInf 2 (v.getLsbD 2)).setInf 3 (v.getLsbD 3)
  unfold Machine.writePtinf
  split
  · split
    · exact ht
    · exact ht.logSet (by decide) (by decide)
  · exact ht.setInf 0 _

/-- Every slot's register is W bits wide (rules R21, R22, R24). -/
theorem readSlot_fits (h : s.Inv) (r : SlotReg) : (readSlot s r).toNat < 2 ^ s.cfg.W := by
  obtain ⟨ha, hb, hp, hn⟩ := h.curveFits
  cases r with
  | ca => exact ha
  | cb => exact hb
  | cp => exact hp
  | cn => exact hn
  | field i => exact h.fieldFits i
  | ptX j => exact (h.pointFits j).1
  | ptY j => exact (h.pointFits j).2

theorem writeSlot (h : s.Inv) (r : SlotReg) {v : Word} (hv : v.toNat < 2 ^ s.cfg.W) : (writeSlot s r v).Inv := by
  obtain ⟨ha, hb, hp, hn⟩ := h.curveFits
  cases r with
  | ca => exact { h with curveFits := ⟨hv, hb, hp, hn⟩ }
  | cb => exact { h with curveFits := ⟨ha, hv, hp, hn⟩ }
  | cp => exact { h with curveFits := ⟨ha, hb, hv, hn⟩ }
  | cn => exact { h with curveFits := ⟨ha, hb, hp, hv⟩ }
  | field i => exact h.setField i hv
  | ptX j => exact h.setPoint j hv (h.pointFits j).2
  | ptY j => exact h.setPoint j (h.pointFits j).1 hv

/-- A word write below NW keeps the register within W bits (rules R62, R65). -/
theorem writeSlotWord (h : s.Inv) (r : SlotReg) {m : Nat} (hm : m < s.cfg.nw) (v : Word32) :
    (writeSlotWord s r m v).Inv := by
  unfold Machine.writeSlotWord
  split
  · exact h.logSet (by decide) (by decide)
  · exact h.writeSlot r (setWord_fits hm (h.readSlot_fits r) v)

theorem winWrite (h : s.Inv) (off : BitVec 12) (v : Word32) : (winWrite s off v).Inv := by
  rcases winWrite_cases s off v with
    hw | hw | hw | hw | ⟨-, hw⟩ | ⟨-, hw | hw | hw | ⟨r, m, hm, -, hw⟩⟩ <;> rw [hw]
  · exact h
  · exact h.writeStatus v
  · exact { h with }
  · exact h.writeErrlog v
  · exact h.logSet (by decide) (by decide)
  · exact h.acceptCommand v
  · exact { h with }
  · exact h.writePtinf v
  · exact h.writeSlotWord r hm v

/-- Every host action keeps the invariant (rules R64, R65, R220, R290). -/
theorem hostAction (h : s.Inv) {a : HostAction} {t : State} (ht : hostAction a s = .next t) : t.Inv := by
  rcases hostAction_cases ht with ⟨x, rfl⟩ | ⟨off, v, -, rfl⟩ | ⟨-, rfl⟩
  · exact { h with }
  · exact h.winWrite off v
  · exact { resetWith h.cfgLegal with }

theorem deliver (h : s.Inv) (rest : List HostAction) : (deliver s rest).Inv := { h with }

end State.Inv

end Sys2Proof.Machine
end

section
/-! SUPPORT. The commands keep the invariant: what they write fits W bits, and none raises InvalidHexInput. -/

namespace Sys2Proof.Machine

variable {s : State}

/-- Both coordinates of a Point, where it has any, are below the bound. -/
theorem toReg_fits {r : Point} {b : Nat} (h : ∀ x y, r = .affine x y → x < b ∧ y < b) (hb : 0 < b) :
    r.toReg.x.toNat < b ∧ r.toReg.y.toNat < b := by
  cases r with
  | identity => exact ⟨zero_toNat_lt hb, zero_toNat_lt hb⟩
  | affine x y =>
    obtain ⟨hx, hy⟩ := h x y rfl
    exact ⟨(toNat_ofNat_le 1024 x).trans_lt hx, (toNat_ofNat_le 1024 y).trans_lt hy⟩

/-- A point register that is not the identity has its stored coordinates as operand (rule R26). -/
theorem pointOperand_eq_affine {j : PReg} {x y : Nat} (h : pointOperand s j = .affine x y) :
    x = (s.pointReg j).x.toNat ∧ y = (s.pointReg j).y.toNat := by
  unfold pointOperand PointReg.value at h
  split at h
  · cases h
  · cases h; exact ⟨rfl, rfl⟩

/-- Every Point that a command writes fits W bits (rules R22, R27). -/
theorem Written.fits {r : Point} (hw : Written s r) (h : s.Inv) {x y : Nat} (hr : r = .affine x y) :
    x < 2 ^ s.cfg.W ∧ y < 2 ^ s.cfg.W := by
  have hp : modulus s < 2 ^ s.cfg.W := h.curveFits.2.2.1
  subst hr
  rcases hw with ⟨hx, hy⟩ | ⟨j, hj⟩ | ⟨i, y', ha, hy⟩
  · exact ⟨hx.trans hp, hy.trans hp⟩
  · obtain ⟨rfl, rfl⟩ := pointOperand_eq_affine hj.symm
    exact h.pointFits j
  · cases ha
    refine ⟨h.fieldFits i, ?_⟩
    rcases hy with ⟨k, rfl⟩ | hy
    · exact h.fieldFits k
    · exact hy.trans hp

theorem takeError_statusErr (e : ErrKind) : (takeError e s).statusErr.toNat = e.code := by
  have h := e.code_range
  simp only [takeError, finish_statusErr, BitVec.toNat_ofNat]
  omega

/-- A command past the common checks completes with code 1 only if its own rule raises InvalidHexInput. -/
theorem complete_checked_code_ne_one {illegal : Bool} {own : Except ErrKind Result}
    (ho : 3 < modulus s → own ≠ .error .invalidHexInput) :
    (complete s (checked s illegal own)).statusErr.toNat ≠ 1 := by
  have err : ∀ e, e ≠ .invalidHexInput → (complete s (.error e)).statusErr.toNat ≠ 1 := fun e he h =>
    he (ErrKind.code_eq_one.1 ((takeError_statusErr e).symm.trans h))
  unfold checked
  split
  · exact err _ (by decide)
  · split
    · exact err _ (by decide)
    · cases own with
      | ok r => simp [complete]
      | error e => exact err e fun he => ho (by omega) (by rw [he])

theorem scalarMultiply_error {p a : Nat} (hp : 1 < p) {P : Point} {k : Int} {e : ErrKind}
    (h : scalarMultiply p a P k = .error e) : e = .invalidScalar ∨ e = .notInvertible := by
  unfold scalarMultiply at h
  split at h
  · cases h; exact .inl rfl
  · split at h
    · cases h
    · exact .inr (smulLoop_error hp h)

theorem decodePoint_error {p a b : Nat} {strict : Bool} {tag x y : Nat} {e : ErrKind}
    (h : decodePoint p a b strict tag x y = .error e) :
    e = .pointNotOnCurve ∨ e = .unsupportedModulus ∨ e = .malformedPublicKeyEncoding := by
  unfold decodePoint at h
  split at h
  · unfold decodeUncompressed at h
    split at h <;> cases h
    exact .inl rfl
  · split at h
    · simp only [decodeCompressed] at h
      split at h
      · cases h; exact .inr (.inl rfl)
      · split at h <;> cases h
        exact .inl rfl
    · cases h; exact .inr (.inr rfl)

/-- `Except.map` raises only the errors of its argument. -/
theorem map_eq_error {ε α β : Type} {x : Except ε α} {f : α → β} {e : ε}
    (h : x.map f = .error e) : x = .error e := by
  cases x with
  | ok a => cases h
  | error e' => cases h; rfl

/-- No command completes with code 1 (rule R252). -/
theorem exec_code_ne_one {i : Instr} {t : State} (h : exec i s = .next t) : t.statusErr.toNat ≠ 1 := by
  cases i with
  | norm | normw | madd | msub | mmul | mpow => cases h; exact complete_checked_code_ne_one fun _ ho => by cases ho
  | minv rd rs1 =>
    cases h
    refine complete_checked_code_ne_one fun h3 ho => ?_
    cases ((modInverse_eq_error (by omega)).1 (map_eq_error ho)).1
  | padd rd rs1 rs2 =>
    cases h
    refine complete_checked_code_ne_one fun h3 ho => ?_
    cases pointAdd_error (by omega) (map_eq_error ho)
  | smul neg rd rs1 rs2 =>
    cases h
    refine complete_checked_code_ne_one fun h3 ho => ?_
    rcases scalarMultiply_error (by omega) (map_eq_error ho) with he | he <;> cases he
  | pdec tag rd rs1 rs2 =>
    cases h
    refine complete_checked_code_ne_one fun h3 ho => ?_
    rcases decodePoint_error (map_eq_error ho) with he | he | he <;> cases he

namespace State.Inv

theorem exec (h : s.Inv) {i : Instr} {t : State} (ht : exec i s = .next t) : t.Inv := by
  have hp : modulus s < 2 ^ s.cfg.W := h.curveFits.2.2.1
  have h1 := exec_code_ne_one ht
  obtain ⟨u, hu, hc⟩ := exec_cases i s
  cases ht.symm.trans hu
  rcases hc with ⟨-, rd, v, -, hv, rfl⟩ | ⟨-, rd, r, -, -, hw, rfl⟩ | ⟨e, rfl⟩
  · exact (h.setField rd ((toNat_ofNat_le 1024 v).trans_lt (hv.trans hp))).finish (by decide) (by decide)
  · obtain ⟨hx, hy⟩ := toReg_fits (fun _ _ hr => hw.fits h hr) (Nat.two_pow_pos s.cfg.W)
    exact (h.setPoint rd hx hy).finish (by decide) (by decide)
  · exact h.takeError fun he => h1 ((takeError_statusErr e).trans (ErrKind.code_eq_one.2 he))

theorem completionStep (h : s.Inv) {t : State} (ht : completionStep s = .next t) : t.Inv := by
  rcases completionStep_cases s with ⟨i, -, he⟩ | ⟨-, he⟩ <;> rw [he] at ht
  · exact h.exec ht
  · cases ht
    exact h.takeError (by decide)

/-- The invariant is kept by every step of either agent (rule R14). -/
theorem step (h : s.Inv) {t : State} (ht : step s = .next t) : t.Inv := by
  rcases step_cases s with ⟨-, hs⟩ | ⟨-, -, hs⟩ | ⟨-, a, rest, -, hs⟩ <;> rw [hs] at ht
  · exact h.completionStep ht
  · cases ht
    exact h
  · exact (h.deliver rest).hostAction ht

end State.Inv

/-- Settles O24: each operation of the state keeps the invariant, and a step is made of them. -/
theorem stepKeepsInv : Obligations.StepKeepsInv := fun _ _ h ht => h.step ht

/-- Settles O23. -/
theorem resetSatisfiesInv : Obligations.ResetSatisfiesInv := fun _ h => State.Inv.resetWith h

end Sys2Proof.Machine
end

section
/-! SUPPORT. When the block moves, and what every step leaves unchanged. -/

namespace Sys2Proof.Machine

open Sys2Proof.Spec

/-- The model's scheduler moves the block exactly when a command is due (log 1, log 9). -/
theorem blockMoves_iff_completesNow (s : State) : blockMoves s = true ↔ CompletesNow s := by
  simp only [blockMoves, State.busy, CompletesNow, Bool.and_eq_true, Bool.or_eq_true, decide_eq_true_eq,
    List.isEmpty_iff]
  rw [or_comm]

theorem completionStep_cfg {s t : State} (h : completionStep s = .next t) : t.cfg = s.cfg := by
  rcases completionStep_cases s with ⟨i, -, he⟩ | ⟨-, he⟩ <;> rw [he] at h
  · exact exec_cfg h
  · cases h
    rfl

/-- Settles O25: neither a completion nor a host action changes W. -/
theorem stepKeepsTheParameter : Obligations.StepKeepsTheParameter := by
  intro s t h
  rcases step_cases s with ⟨-, hs⟩ | ⟨-, -, hs⟩ | ⟨-, a, rest, -, hs⟩ <;> rw [hs] at h
  · exact completionStep_cfg h
  · cases h
    rfl
  · exact hostAction_cfg (s := deliver s rest) h

/-- Settles O20: without a command due the block does not move, so the step is the host's. -/
theorem stepTakesTheHostActionOtherwise : Obligations.StepTakesTheHostActionOtherwise := by
  intro s hn
  have hb : ¬ blockMoves s = true := fun h => hn ((blockMoves_iff_completesNow s).1 h)
  rcases step_cases s with ⟨hm, -⟩ | ⟨-, hh, hs⟩ | ⟨-, a, rest, hh, hs⟩
  · exact absurd hm hb
  · exact ⟨fun _ => hs, fun a rest hc => nomatch hh.symm.trans hc⟩
  · refine ⟨fun hc => (nomatch hh.symm.trans hc), fun b rest' hc => ?_⟩
    obtain ⟨rfl, rfl⟩ := List.cons.inj (hh.symm.trans hc)
    exact hs

end Sys2Proof.Machine
end

section
/-! SUPPORT. What a command reads: states that agree on it give the command the same outcome (rules R14, R25, R101). -/

namespace Sys2Proof.Machine

/-- The two states agree on everything that a command reads: W, the field and point registers, the curve but for the
order `cn` (rule R25), and `CTRL`. -/
structure SameOperands (s t : State) : Prop where
  cfg : t.cfg = s.cfg
  f : t.f = s.f
  pt : t.pt = s.pt
  ca : t.ca = s.ca
  cb : t.cb = s.cb
  cp : t.cp = s.cp
  ctrlLock : t.ctrlLock = s.ctrlLock
  ctrlStrict : t.ctrlStrict = s.ctrlStrict

namespace SameOperands

variable {s t : State}

theorem fieldOperand (h : SameOperands s t) (i : FReg) : fieldOperand t i = fieldOperand s i := by
  rw [Machine.fieldOperand, Machine.fieldOperand, fieldReg_congr h.f]

theorem pointOperand (h : SameOperands s t) (j : PReg) : pointOperand t j = pointOperand s j := by
  rw [Machine.pointOperand, Machine.pointOperand, pointReg_congr h.pt]

theorem wideMagnitude (h : SameOperands s t) (lo hi : FReg) : wideMagnitude t lo hi = wideMagnitude s lo hi := by
  rw [Machine.wideMagnitude, Machine.wideMagnitude, h.fieldOperand, h.fieldOperand, h.cfg]

theorem modulus (h : SameOperands s t) : modulus t = modulus s := congrArg BitVec.toNat h.cp

theorem coeffA (h : SameOperands s t) : coeffA t = coeffA s := congrArg BitVec.toNat h.ca

theorem coeffB (h : SameOperands s t) : coeffB t = coeffB s := congrArg BitVec.toNat h.cb

theorem checked (h : SameOperands s t) (illegal : Bool) (own : Except ErrKind Result) :
    checked t illegal own = checked s illegal own := by
  rw [Machine.checked, Machine.checked, h.modulus]

theorem lockedDest (h : SameOperands s t) (rd : PReg) : lockedDest t rd = lockedDest s rd := by
  rw [Machine.lockedDest, Machine.lockedDest, h.ctrlLock]

/-- A command comes to one outcome from all states that agree on its operands (rules R94, R101). -/
theorem exec (h : SameOperands s t) (i : Instr) :
    ∃ r, exec i s = .next (complete s r) ∧ exec i t = .next (complete t r) := by
  cases i <;> refine ⟨_, rfl, ?_⟩
  case norm | normw | madd | msub | mmul | minv | mpow =>
    simp only [Machine.exec, execNorm, execNormw, execMadd, execMsub, execMmul, execMinv, execMpow, fieldCommand,
      h.fieldOperand, h.wideMagnitude, h.modulus, h.checked]
  case padd | smul | pdec =>
    simp only [Machine.exec, execPadd, execSmul, execPdec, pointCommand, h.fieldOperand, h.pointOperand, h.modulus,
      h.coeffA, h.coeffB, h.ctrlStrict, h.lockedDest, h.checked]

/-- The same outcome written into states with the same registers (rules R27, R259). -/
theorem complete (h : SameOperands s t) (r : Except ErrKind Result) :
    (complete t r).f = (complete s r).f ∧ (complete t r).pt = (complete s r).pt ∧
    (complete t r).statusErr = (complete s r).statusErr ∧ (complete t r).statusDone = (complete s r).statusDone := by
  match r with
  | .ok (.field rd v) => simp [Machine.complete, State.writeResult, h.f, h.pt]
  | .ok (.point rd q) => simp [Machine.complete, State.writeResult, h.f, h.pt]
  | .error e => simp [Machine.complete, takeError, h.f, h.pt]

end SameOperands

/-- While BUSY a window write changes neither what the command reads nor the command itself (rule R69). -/
theorem winWrite_busy {s : State} (hb : s.seq = .busy) (off : BitVec 12) (v : Word32) :
    SameOperands s (winWrite s off v) ∧ (winWrite s off v).seq = .busy ∧ (winWrite s off v).cmd = s.cmd := by
  rcases winWrite_cases s off v with h | h | h | h | ⟨-, h⟩ | ⟨hi, -⟩
  case inr.inl =>
    rw [h, writeStatus]
    split <;> exact ⟨by constructor <;> rfl, hb, rfl⟩
  case inr.inr.inr.inr.inr => rw [hb] at hi; cases hi
  all_goals rw [h]; exact ⟨by constructor <;> rfl, hb, rfl⟩

/-- While BUSY no host action but Reset changes what the command reads or the command itself (rules R14, R69). -/
theorem hostAction_busy {a : HostAction} {s t : State} (hb : s.seq = .busy) (ha : a ≠ .reset)
    (ht : hostAction a s = .next t) : SameOperands s t ∧ t.seq = .busy ∧ t.cmd = s.cmd := by
  rcases hostAction_cases ht with ⟨x, rfl⟩ | ⟨off, v, -, rfl⟩ | ⟨hr, -⟩
  · exact ⟨by constructor <;> rfl, hb, rfl⟩
  · exact winWrite_busy hb off v
  · exact absurd hr ha

/-- Settles O54: the host action leaves the command's operands, so the command comes to the same outcome. -/
theorem hostCannotDisturbARunningCommand : Obligations.HostCannotDisturbARunningCommand := by
  intro i a s t u v hb ha ht hu hv
  obtain ⟨hsame, hseq, hcmd⟩ := hostAction_busy hb ha ht
  obtain ⟨r, hs, ht'⟩ := hsame.exec i
  cases hu.symm.trans hs
  cases hv.symm.trans ht'
  exact ⟨hseq, hcmd, hsame.complete r⟩

end Sys2Proof.Machine
end

section
/-! SUPPORT. SET and GET of a whole register: a loop of word writes or reads over the slot (rules R62, R100). -/

namespace Sys2Proof.Machine

/-- The lowest `n` words of `v` over the content `old` of a register. -/
def loadWords (old v : Word) : Nat → Word
  | 0 => old
  | n + 1 => setWord (loadWords old v n) n (getWord v n)

theorem getLsbD_loadWords (old v : Word) (n i : Nat) (hi : i < 1024) :
    (loadWords old v n).getLsbD i = if i < 32 * n then v.getLsbD i else old.getLsbD i := by
  induction n with
  | zero => simp [loadWords]
  | succ n ih =>
    rw [loadWords, getLsbD_setWord _ _ _ _ hi, ih]
    by_cases hlo : i < 32 * n
    · rw [if_neg (by omega), if_pos hlo, if_pos (by omega)]
    · by_cases hw : i < 32 * n + 32
      · rw [if_pos (by omega), if_pos (by omega), getWord, BitVec.getLsbD_extractLsb',
          decide_eq_true (by omega : i - 32 * n < 32), Bool.true_and, Nat.add_sub_cancel' (by omega)]
      · rw [if_neg (by omega), if_neg hlo, if_neg (by omega)]

/-- Loading all NW words replaces a register of W bits (rules R8, R62). -/
theorem loadWords_all {old v : Word} {nw : Nat} (ho : old.toNat < 2 ^ (32 * nw)) (hv : v.toNat < 2 ^ (32 * nw)) :
    loadWords old v nw = v := by
  apply BitVec.eq_of_getLsbD_eq
  intro i hi
  rw [getLsbD_loadWords _ _ _ _ hi]
  split
  · rfl
  · rw [(fits_iff old _).1 ho i (by omega), (fits_iff v _).1 hv i (by omega)]

/-- A register write of the value a point register already holds changes nothing. -/
theorem setPoint_same (s : State) (j : PReg) : s.setPoint j (s.pointReg j) = s := by
  simp [State.pointReg, State.setPoint, Vector.get_eq_getElem]

/-- A slot write of the content that is already there changes nothing. -/
theorem writeSlot_readSlot (s : State) (r : SlotReg) : writeSlot s r (readSlot s r) = s := by
  cases r with
  | ca | cb | cp | cn => rfl
  | field i => exact setField_same s i
  | ptX j | ptY j => exact setPoint_same s j

/-- Of two writes to one slot the second counts. -/
theorem writeSlot_writeSlot (s : State) (r : SlotReg) (v w : Word) :
    writeSlot (writeSlot s r v) r w = writeSlot s r w := by
  cases r <;> simp [writeSlot, State.setField, State.setPoint, State.pointReg, Vector.get_eq_getElem]

/-- A slot offset is a multiple of 4 (rules R61, R66). -/
theorem accessRefusal_slotOffset (r : SlotReg) {m : Nat} (hm : m < 32) :
    accessRefusal (slotOffset r m) .word = none := by
  have h := r.base_range
  have ho := slotOffset_toNat r hm
  simp only [accessRefusal, ne_eq, not_true_eq_false, if_false, ite_not]
  rw [if_pos (by omega)]

/-- A word write to a slot that the lock does not guard, in IDLE (rules R65, R70). -/
theorem hostAction_slotWrite {s : State} {r : SlotReg} (hi : s.seq = .idle)
    (hl : (r.lockProtected && s.ctrlLock) = false)
    (hnw : s.cfg.nw ≤ 32) {m : Nat} (hm : m < s.cfg.nw) (v : Word32) :
    hostAction (.winWrite (slotOffset r m) .word v) s = .next (writeSlot s r (setWord (readSlot s r) m v)) := by
  simp [hostAction, accessRefusal_slotOffset r (by omega : m < 32), winWrite, locate_slotOffset hnw r hm, gated,
    State.busy, hi, writeSlotWord, hl]

/-- A sequence in two parts (rule R100). -/
theorem perform_append (xs ys : List HostAction) (s : State) :
    perform (xs ++ ys) s = (perform xs s).andThen fun _ t => perform ys t := by
  induction xs generalizing s with
  | nil => rfl
  | cons a xs ih =>
    rw [List.cons_append, perform, perform]
    cases hostAction a s with
    | next t => exact ih t
    | refused r => rfl
    | fault r => cases r

/-- The first `n` word writes of SET (rule R100). -/
theorem perform_setActions {s : State} {r : SlotReg} (hi : s.seq = .idle) (hl : (r.lockProtected && s.ctrlLock) = false)
    (hnw : s.cfg.nw ≤ 32) (v : Nat) {n : Nat} (hn : n ≤ s.cfg.nw) :
    perform (setActions n r v) s = .done () (writeSlot s r (loadWords (readSlot s r) (BitVec.ofNat 1024 v) n)) := by
  induction n with
  | zero => rw [loadWords, writeSlot_readSlot]; rfl
  | succ n ih =>
    have hstep := hostAction_slotWrite (s := writeSlot s r (loadWords (readSlot s r) (BitVec.ofNat 1024 v) n)) (r := r)
      (m := n) (by simpa using hi) (by simpa using hl) (by simpa using hnw) (by simpa using hn)
      (getWord (BitVec.ofNat 1024 v) n)
    rw [readSlot_writeSlot_self, writeSlot_writeSlot] at hstep
    have hsplit : setActions (n + 1) r v =
        setActions n r v ++ [.winWrite (slotOffset r n) .word (getWord (BitVec.ofNat 1024 v) n)] := by
      simp [setActions, List.range_succ]
    rw [hsplit, perform_append, ih (by omega)]
    simp only [HostEnd.andThen, perform, hstep, loadWords]

/-- SET of a whole register that the lock does not guard (rules R8, R100). -/
theorem runSet_eq {s : State} {r : SlotReg} (hi : s.seq = .idle) (hl : (r.lockProtected && s.ctrlLock) = false)
    (hnw : s.cfg.nw ≤ 32) (ho : (readSlot s r).toNat < 2 ^ s.cfg.W) {v : Nat} (hv : v < 2 ^ s.cfg.W) :
    runSet r v s = .done () (writeSlot s r (BitVec.ofNat 1024 v)) := by
  rw [runSet, if_pos hv, perform_setActions hi hl hnw v le_rfl,
    loadWords_all ho ((toNat_ofNat_le 1024 v).trans_lt hv)]

theorem winRead_slotOffset {s : State} (hnw : s.cfg.nw ≤ 32) (r : SlotReg) {m : Nat} (hm : m < s.cfg.nw) :
    winRead s (slotOffset r m) = getWord (readSlot s r) m := by
  simp [winRead, locate_slotOffset hnw r hm]

/-- The first `n` word reads of GET spell the register's lowest 32 n bits (rules R62, R100). -/
theorem readWords_eq {s : State} (hnw : s.cfg.nw ≤ 32) (r : SlotReg) {n : Nat} (hn : n ≤ s.cfg.nw) :
    readWords s r n = (readSlot s r).toNat % 2 ^ (32 * n) := by
  induction n with
  | zero => simp [readWords, Nat.mod_one]
  | succ n ih =>
    rw [readWords, ih (by omega), winRead_slotOffset hnw r (by omega), getWord, BitVec.extractLsb'_toNat,
      Nat.shiftRight_eq_div_pow, Nat.mul_succ, Nat.pow_add, Nat.mod_mul, Nat.mul_comm (2 ^ (32 * n))]

/-- GET of a register of W bits is its content (rule R100). -/
theorem runGet_eq {s : State} (hnw : s.cfg.nw ≤ 32) {r : SlotReg} (hr : (readSlot s r).toNat < 2 ^ s.cfg.W) :
    runGet r s = (readSlot s r).toNat := by
  rw [runGet, readWords_eq hnw r le_rfl, Nat.mod_eq_of_lt hr]

/-- A number of no more bits than its slot is not cut (rules R7, R62). -/
theorem toNat_ofNat_of_fits {w n v : Nat} (hn : n ≤ w) (hv : v < 2 ^ n) : (BitVec.ofNat w v).toNat = v := by
  rw [BitVec.toNat_ofNat, Nat.mod_eq_of_lt (hv.trans_le (Nat.pow_le_pow_right (by decide) hn))]

/-- Settles O58: field registers are not lock-protected, so SET's word writes load the value and GET reads it. -/
theorem setLoadsAWholeRegister : Obligations.SetLoadsAWholeRegister := by
  intro s i v hi hc ho
  refine ⟨fun hv => ?_, fun hv => if_neg hv.not_gt⟩
  let t := s.setField i (BitVec.ofNat 1024 v)
  have hread : (readSlot t (.field i)).toNat = v := by
    rw [readSlot, fieldReg_setField_self, toNat_ofNat_of_fits (w := 1024) (Nat.mul_le_mul_left 32 hc.2) hv]
  exact ⟨t, runSet_eq (r := .field i) hi rfl hc.2 ho hv, rfl,
    (runGet_eq (s := t) hc.2 (hread.trans_lt hv)).trans hread⟩

end Sys2Proof.Machine
end

section
/-! SUPPORT. The frame of a command: its destination, STATUS, ERRLOG and `seq` are all it can change (rules R27, R259), and
what a field command leaves in its destination (rule R135). -/

namespace Sys2Proof.Machine

open Sys2Proof.Spec

variable {i : Instr} {s t : State}

/-- The statements' destinations are those of `destOf` (rule R94). -/
theorem writesField_iff {k : FReg} : WritesField i k ↔ destOf i = .field k := by
  cases i <;> simp [WritesField, destOf]

theorem writesPoint_iff {j : PReg} : WritesPoint i j ↔ destOf i = .point j := by
  cases i <;> simp [WritesPoint, destOf]

namespace Completed

/-- All that the completion of a command can change (rules R27, R259). -/
theorem frame (h : Completed i s t) :
    t = { s with f := t.f, pt := t.pt, statusErr := t.statusErr, statusDone := true, errlog := t.errlog, seq := .idle } := by
  rcases h with ⟨-, rd, v, -, -, rfl⟩ | ⟨-, rd, r, -, -, -, rfl⟩ | ⟨e, rfl⟩ <;> rfl

/-- A field register that is not the destination is kept (rule R27). -/
theorem fieldReg_eq (h : Completed i s t) {k : FReg} (hk : destOf i ≠ .field k) : t.fieldReg k = s.fieldReg k := by
  rcases h with ⟨-, rd, v, hd, -, rfl⟩ | ⟨-, rd, r, -, -, -, rfl⟩ | ⟨e, rfl⟩
  · exact fieldReg_setField_ne s (fun hc => hk (hd.trans (congrArg Dest.field hc))) _
  · rfl
  · rfl

/-- A point register that is not the destination is kept (rule R27). -/
theorem pointReg_eq (h : Completed i s t) {j : PReg} (hj : destOf i ≠ .point j) : t.pointReg j = s.pointReg j := by
  rcases h with ⟨-, rd, v, -, -, rfl⟩ | ⟨-, rd, r, hd, -, -, rfl⟩ | ⟨e, rfl⟩
  · rfl
  · exact pointReg_setPoint_ne s (fun hc => hj (hd.trans (congrArg Dest.point hc))) _
  · rfl

/-- A slot outside the destination is kept (rules R27, R62). -/
theorem readSlot_eq (h : Completed i s t) {r : SlotReg} (hf : ∀ k, r = .field k → destOf i ≠ .field k)
    (hp : ∀ j, r = .ptX j ∨ r = .ptY j → destOf i ≠ .point j) : readSlot t r = readSlot s r := by
  cases r with
  | ca | cb | cp | cn => rw [h.frame]; rfl
  | field k => exact h.fieldReg_eq (hf k rfl)
  | ptX j => exact congrArg PointReg.x (h.pointReg_eq (hp j (.inl rfl)))
  | ptY j => exact congrArg PointReg.y (h.pointReg_eq (hp j (.inr rfl)))

end Completed

theorem exec_completed (h : exec i s = .next t) : Completed i s t := by
  obtain ⟨u, hu, hc⟩ := exec_cases i s
  cases h.symm.trans hu
  exact hc

theorem offset_toNat {n : Nat} (hn : n < 0x1000) : (offset n).toNat = n := Nat.mod_eq_of_lt hn

/-- A word other than STATUS, ERRLOG, PTINF and the destination's reads as before the command (rules R27, R64). -/
theorem Completed.winRead_of_locate (h : Completed i s t) {off : BitVec 12} (hstat : locate s.cfg.nw off ≠ .status)
    (hlog : locate s.cfg.nw off ≠ .errlog) (hinf : locate s.cfg.nw off ≠ .ptinf)
    (hslot : ∀ r m, locate s.cfg.nw off = .slot r m → readSlot t r = readSlot s r) :
    winRead t off = winRead s off := by
  have hcfg : t.cfg = s.cfg := by rw [h.frame]
  unfold winRead
  rw [hcfg]
  cases hloc : locate s.cfg.nw off with
  | id | config | unmapped => rfl
  | ctrl | inten => rw [h.frame]; rfl
  | cmd => rw [h.frame]
  | status => exact absurd hloc hstat
  | errlog => exact absurd hloc hlog
  | ptinf => exact absurd hloc hinf
  | slot r m => exact congrArg (getWord · m) (hslot r m hloc)

/-- Below 0x080 the map is `controlRegAt`, and only slots and unmapped words stand elsewhere (rule R61). -/
theorem controlRegAt_of_locate {nw : Nat} {off : BitVec 12} {l : Location} (h : locate nw off = l)
    (hs : ∀ r m, l ≠ .slot r m) (hu : l ≠ .unmapped) : controlRegAt (off.toNat / 4) = l := by
  unfold locate at h
  split at h
  · exact h
  · split at h
    · split at h
      · exact absurd h.symm (hs _ _)
      · exact absurd h.symm hu
    · exact absurd h.symm hu

/-- The words at which STATUS, ERRLOG and PTINF stand (rule R61). -/
theorem word_of_controlRegAt {k : Nat} : (controlRegAt k = .status → k = 4) ∧ (controlRegAt k = .errlog → k = 6) ∧
    (controlRegAt k = .ptinf → k = 7) := by
  unfold controlRegAt
  split <;> simp

/-- The window's frame of a command: every aligned word outside its destination, STATUS, ERRLOG and PTINF (rule R27). -/
theorem Completed.winRead_eq (h : Completed i s t) {n : Nat} (ha : n % 4 = 0) (hn : n < 0x1000) (hstat : n ≠ 0x010)
    (hlog : n ≠ 0x018) (hinf : n ≠ 0x01C)
    (hf : ∀ k, WritesField i k → n < 0x400 + 0x80 * k.val ∨ 0x480 + 0x80 * k.val ≤ n)
    (hp : ∀ j, WritesPoint i j → n < 0x800 + 0x100 * j.val ∨ 0x900 + 0x100 * j.val ≤ n) :
    winRead t (offset n) = winRead s (offset n) := by
  have ho := offset_toNat hn
  obtain ⟨status4, errlog6, ptinf7⟩ := word_of_controlRegAt (k := (offset n).toNat / 4)
  refine h.winRead_of_locate (fun hl => ?_) (fun hl => ?_) (fun hl => ?_) fun r m hl => ?_
  · have := status4 (controlRegAt_of_locate hl nofun nofun)
    omega
  · have := errlog6 (controlRegAt_of_locate hl nofun nofun)
    omega
  · have := ptinf7 (controlRegAt_of_locate hl nofun nofun)
    omega
  · obtain ⟨-, hm, hoff⟩ := eq_slotOffset_of_locate (by omega) hl
    have hbase : n = r.base + 4 * m := by rw [← ho, hoff, slotOffset_toNat r hm]
    refine h.readSlot_eq (fun k hr hd => ?_) fun j hr hd => ?_
    · have := hf k (writesField_iff.2 hd)
      subst hr
      simp only [SlotReg.base] at hbase
      omega
    · have := hp j (writesPoint_iff.2 hd)
      rcases hr with rfl | rfl <;> simp only [SlotReg.base] at hbase <;> omega

/-- Settles O26: the command completes, and a completion has this frame. -/
theorem commandsChangeOnlyTheirDestination : Obligations.CommandsChangeOnlyTheirDestination := by
  intro i s t h
  have hc := exec_completed h
  refine ⟨fun k hk => hc.fieldReg_eq (mt writesField_iff.2 hk), fun j hj => hc.pointReg_eq (mt writesPoint_iff.2 hj),
    ?_, ?_, ?_, ?_, ?_, ?_, ?_, ?_, ?_, ?_, ?_, ?_,
    fun n ha hn hstat hlog hinf hf hp => hc.winRead_eq ha hn hstat hlog hinf hf hp⟩ <;> rw [hc.frame]

/-- An error's code is not 0, so `ERR` is 0 only after a result (rules R251, R259). -/
theorem takeError_statusErr_ne_zero (e : ErrKind) (s : State) : (takeError e s).statusErr ≠ 0 := by
  intro h
  have hcode : 0 = e.code := (congrArg BitVec.toNat h).symm.trans (takeError_statusErr e)
  have hpos := e.code_range.1
  omega

/-- Settles O29: a field result is below the modulus, and no error leaves `ERR = 0`. -/
theorem fieldResultsAreCanonical : Obligations.FieldResultsAreCanonical := by
  intro i s t k hk h herr
  have hd := writesField_iff.1 hk
  rcases exec_completed h with ⟨-, rd, v, hrd, hv, rfl⟩ | ⟨-, rd, r, hrd, -, -, rfl⟩ | ⟨e, rfl⟩
  · cases hd.symm.trans hrd
    have hreg : ((s.setField k (BitVec.ofNat 1024 v)).finish 0).f.get k = BitVec.ofNat 1024 v :=
      fieldReg_setField_self s k _
    rw [hreg]
    exact (toNat_ofNat_le 1024 v).trans_lt hv
  · cases hd.symm.trans hrd
  · exact absurd herr (takeError_statusErr_ne_zero e s)

end Sys2Proof.Machine
end

section
/-! SUPPORT. The curve coefficients enter every command modulo p (rule R24), and the order enters none (rule R25). -/

namespace Sys2Proof.Machine

/-- Settles O31: states that differ in `cn` alone agree on what a command reads, and no completion touches `cn`. -/
theorem noCommandReadsTheOrder : Obligations.NoCommandReadsTheOrder := by
  intro i s t n h
  have hsame : SameOperands s { s with cn := n } := by constructor <;> rfl
  obtain ⟨r, hs, ht⟩ := hsame.exec i
  cases h.symm.trans hs
  rw [ht]
  rcases r with e | ⟨rd, v⟩ | ⟨rd, q⟩ <;> rfl

section Coefficients

variable {p : Nat}

/-- A reduced coefficient is congruent to the stored one (rule R24). -/
theorem natCast_mod_modEq (a p : Nat) : ((a % p : Nat) : Int) ≡ a [ZMOD p] :=
  Int.natCast_modEq_iff.2 (Nat.mod_modEq a p)

/-- The tangent's slope depends on a modulo p only (rule R164). -/
theorem tangentSlope_mod (hp : 0 < p) (a x y : Nat) : tangentSlope p (a % p) x y = tangentSlope p a x y := by
  have hslope : ∀ u : Nat, normalize ((3 * (x : Int) ^ 2 + (a % p : Nat)) * u) p =
      normalize ((3 * (x : Int) ^ 2 + a) * u) p := fun u =>
    (normalize_eq_iff hp).2 (((natCast_mod_modEq a p).add_left _).mul_right _)
  unfold tangentSlope
  simp only [hslope]

/-- `add` depends on a modulo p only (rule R161). -/
theorem pointAdd_mod (hp : 0 < p) (a : Nat) : pointAdd p (a % p) = pointAdd p a := by
  funext A B
  cases A <;> cases B <;> simp only [pointAdd, addAffine, tangentSlope_mod hp]

/-- The scalar multiplier's loop depends on a modulo p only (rule R181). -/
theorem smulLoop_mod (hp : 0 < p) (a : Nat) (P : Point) (k : Nat) :
    ∀ (i : Nat) (acc : Point), smulLoop p (a % p) P k i acc = smulLoop p a P k i acc
  | 0, _ => rfl
  | i + 1, acc => by simp only [smulLoop, smulTurn, pointAdd_mod hp, smulLoop_mod hp a P k i]

theorem scalarMultiply_mod (hp : 0 < p) (a : Nat) (P : Point) (k : Int) :
    scalarMultiply p (a % p) P k = scalarMultiply p a P k := by
  simp only [scalarMultiply, smulLoop_mod hp]

/-- The right side of the curve equation depends on a and b modulo p only (rule R201). -/
theorem curveRhs_mod (p a b x : Nat) : curveRhs (a % p) (b % p) x ≡ curveRhs a b x [ZMOD p] :=
  (((natCast_mod_modEq a p).mul_right _).add_left _).add (natCast_mod_modEq b p)

/-- The decompressor depends on a and b modulo p only (rule R201). -/
theorem decodePoint_mod (hp : 0 < p) (a b : Nat) (strict : Bool) (tag x y : Nat) :
    decodePoint p (a % p) (b % p) strict tag x y = decodePoint p a b strict tag x y := by
  have hrhs : normalize (curveRhs (a % p) (b % p) x) p = normalize (curveRhs a b x) p :=
    (normalize_eq_iff hp).2 (curveRhs_mod p a b x)
  have hdiff : normalize ((y : Int) ^ 2 - curveRhs (a % p) (b % p) x) p = normalize ((y : Int) ^ 2 - curveRhs a b x) p :=
    (normalize_eq_iff hp).2 ((curveRhs_mod p a b x).sub_left _)
  simp only [decodePoint, decodeUncompressed, decodeCompressed, hrhs, hdiff]

end Coefficients

/-- The state with both curve coefficients reduced modulo p (rule R24). -/
def reduceCoefficients (s : State) : State :=
  { s with ca := BitVec.ofNat 1024 (s.ca.toNat % s.cp.toNat), cb := BitVec.ofNat 1024 (s.cb.toNat % s.cp.toNat) }

section ReduceCoefficients

variable (s : State)

/-- A reduced coefficient fits its slot (rule R62). -/
theorem toNat_ofNat_mod (v : Word) (p : Nat) : (BitVec.ofNat 1024 (v.toNat % p)).toNat = v.toNat % p := by
  rw [BitVec.toNat_ofNat, Nat.mod_eq_of_lt ((Nat.mod_le _ _).trans_lt v.isLt)]

@[simp] theorem coeffA_reduceCoefficients : coeffA (reduceCoefficients s) = coeffA s % modulus s :=
  toNat_ofNat_mod s.ca s.cp.toNat

@[simp] theorem coeffB_reduceCoefficients : coeffB (reduceCoefficients s) = coeffB s % modulus s :=
  toNat_ofNat_mod s.cb s.cp.toNat

@[simp] theorem modulus_reduceCoefficients : modulus (reduceCoefficients s) = modulus s := rfl

@[simp] theorem fieldOperand_reduceCoefficients (i : FReg) : fieldOperand (reduceCoefficients s) i = fieldOperand s i := rfl

@[simp] theorem pointOperand_reduceCoefficients (j : PReg) : pointOperand (reduceCoefficients s) j = pointOperand s j := rfl

@[simp] theorem ctrlStrict_reduceCoefficients : (reduceCoefficients s).ctrlStrict = s.ctrlStrict := rfl

/-- A point command's outcome is the common checks' answer on its own rule's (rule R101). -/
theorem pointCommand_reduceCoefficients (rd : PReg) (own : Except ErrKind Point) :
    pointCommand (reduceCoefficients s) rd own =
      .next (complete (reduceCoefficients s) (checked s (lockedDest s rd) (own.map (Result.point rd)))) := rfl

variable {s}

/-- A command comes to one outcome with the stored and with the reduced coefficients (rule R24). -/
theorem exec_reduceCoefficients (hp : 0 < modulus s) (i : Instr) :
    ∃ r, exec i s = .next (complete s r) ∧
      exec i (reduceCoefficients s) = .next (complete (reduceCoefficients s) r) := by
  cases i with
  | norm | normw | madd | msub | mmul | minv | mpow => exact ⟨_, rfl, rfl⟩
  | padd rd rs1 rs2 =>
    exact ⟨_, rfl, by simp [exec, execPadd, pointAdd_mod hp, pointCommand_reduceCoefficients]⟩
  | smul neg rd rs1 rs2 =>
    exact ⟨_, rfl, by simp [exec, execSmul, scalarMultiply_mod hp, pointCommand_reduceCoefficients]⟩
  | pdec tag rd rs1 rs2 =>
    exact ⟨_, rfl, by simp [exec, execPdec, decodePoint_mod hp, pointCommand_reduceCoefficients]⟩

end ReduceCoefficients

/-- Settles O30: the outcome is the same, and no completion touches `ca`, `cb` or `cp`. -/
theorem coefficientsEnterModuloP : Obligations.CoefficientsEnterModuloP := by
  intro i s t hp h
  obtain ⟨r, hs, hr⟩ := exec_reduceCoefficients (s := s) (by unfold modulus; omega) i
  cases h.symm.trans hs
  refine hr.trans ?_
  rcases r with e | ⟨rd, v⟩ | ⟨rd, q⟩ <;> rfl

end Sys2Proof.Machine
end

section
/-! SUPPORT. What a window write does at each mapped offset (rules R42 to R47, R65). -/

namespace Sys2Proof.Machine

open Sys2Proof.Spec

/-- STATUS is not gated: bit 1 acknowledges, every other bit is ignored (rules R44, R69). -/
theorem winWrite_status (s : State) (v : Word32) : winWrite s (offset 0x010) v = writeStatus s v := rfl

theorem winWrite_inten (s : State) (v : Word32) : winWrite s (offset 0x014) v = writeInten s v := rfl

theorem winWrite_errlog (s : State) (v : Word32) : winWrite s (offset 0x018) v = writeErrlog s v := rfl

theorem winWrite_ctrl (s : State) (v : Word32) : winWrite s (offset 0x008) v = gated s (writeCtrl s v) := rfl

theorem winWrite_ptinf (s : State) (v : Word32) : winWrite s (offset 0x01C) v = gated s (writePtinf s v) := rfl

/-- In IDLE the BUSY gate is open (rule R69). -/
theorem gated_idle {s : State} (hi : s.seq = .idle) (t : State) : gated s t = t := by
  simp [gated, State.busy, hi]

/-- A word write in IDLE to a slot that the lock does not guard (rules R65, R70). -/
theorem winWrite_slotOffset {s : State} (hi : s.seq = .idle) {r : SlotReg} (hl : (r.lockProtected && s.ctrlLock) = false)
    (hnw : s.cfg.nw ≤ 32) {m : Nat} (hm : m < s.cfg.nw) (v : Word32) :
    winWrite s (slotOffset r m) v = writeSlot s r (setWord (readSlot s r) m v) := by
  simpa [hostAction, accessRefusal_slotOffset r (hm.trans_le hnw)] using hostAction_slotWrite hi hl hnw hm v

/-- The model's word write replaces the word and no other bit (rule R65). -/
theorem wordReplaced_setWord (r : Word) (m : Nat) (v : Word32) : WordReplaced r (setWord r m v) m v :=
  fun k hk => getLsbD_setWord r m v k hk

/-- Settles O44: the three writes are not gated, and each is its register's own write. -/
theorem statusIntenErrlogWrites : Obligations.StatusIntenErrlogWrites := by
  intro s v
  refine ⟨fun hb => ?_, fun hb => ?_, winWrite_inten s v, winWrite_errlog s v⟩
  · rw [winWrite_status, writeStatus, if_pos hb]
    rfl
  · rw [winWrite_status, writeStatus, hb]
    rfl

/-- Settles O47: LOCK becomes its old value or bit 0. -/
theorem ctrlWriteSetsLockAndStrict : Obligations.CtrlWriteSetsLockAndStrict := by
  intro s v hi
  rw [winWrite_ctrl, gated_idle hi, writeCtrl]
  exact ⟨fun hb => by rw [hb, Bool.or_true], fun hb => by rw [hb, Bool.or_false]⟩

/-- Settles O49: each offset is the word's slot offset, and the slot's register is written with the word replaced. -/
theorem slotWriteReplacesOneWord : Obligations.SlotWriteReplacesOneWord := by
  intro s m v hi hnw hm
  have hw : ∀ r : SlotReg, (r.lockProtected && s.ctrlLock) = false → ∃ x, WordReplaced (readSlot s r) x m v ∧
      winWrite s (slotOffset r m) v = writeSlot s r x := fun r hl =>
    ⟨_, wordReplaced_setWord (readSlot s r) m v, winWrite_slotOffset hi hl hnw hm v⟩
  refine ⟨fun i => hw (.field i) rfl, fun j hj => ?_, fun hl => ?_⟩
  · have hl : (decide (j = 0) && s.ctrlLock) = false := by
      rcases hj with hj | hj
      · rw [decide_eq_false hj, Bool.false_and]
      · rw [hj, Bool.and_false]
    exact ⟨hw (.ptX j) hl, hw (.ptY j) hl⟩
  · exact ⟨hw .ca hl, hw .cb hl, hw .cp hl, hw .cn hl⟩

/-- A point register after its flag, or another's, was written (rule R47). -/
theorem pointReg_setInf (s : State) (j k : PReg) (b : Bool) :
    (s.setInf j b).pointReg k = { s.pointReg k with inf := if j = k then b else (s.pointReg k).inf } := by
  rw [State.setInf, pointReg_setPoint]
  split
  · rename_i h
    rw [h]
  · rfl

/-- The registers after a PTINF write: the written flags, but G's own flag under the lock (rule R47). -/
theorem pointReg_writePtinf (s : State) (v : Word32) (j : PReg) :
    (writePtinf s v).pointReg j =
      { s.pointReg j with inf := if j = 0 ∧ s.ctrlLock = true then (s.pointReg j).inf else v.getLsbD j } := by
  have hj : j = 0 ∨ j = 1 ∨ j = 2 ∨ j = 3 := by revert j; decide
  unfold writePtinf
  split
  next hl =>
    rw [apply_ite (State.pointReg · j), pointReg_logSet, ite_self]
    rcases hj with rfl | rfl | rfl | rfl <;> simp [pointReg_setInf, hl]
  next hl => rcases hj with rfl | rfl | rfl | rfl <;> simp [pointReg_setInf, hl]

/-- LOCKWR records a PTINF write that would have changed G's flag under the lock (rule R47). -/
theorem writePtinf_errlog (s : State) (v : Word32) :
    (writePtinf s v).errlog =
      if s.ctrlLock = true ∧ v.getLsbD 0 ≠ (s.pointReg 0).inf then s.errlog ||| (1#32 <<< 10) else s.errlog := by
  unfold writePtinf
  split
  next hl =>
    split
    next hb => rw [if_neg fun h => h.2 hb]; rfl
    next hb => rw [if_pos ⟨hl, hb⟩]; rfl
  next hl => rw [if_neg fun h => hl h.1]; rfl

/-- A PTINF write changes the flags and ERRLOG alone (rule R47). -/
theorem writePtinf_frame (s : State) (v : Word32) :
    writePtinf s v = { s with pt := (writePtinf s v).pt, errlog := (writePtinf s v).errlog } := by
  unfold writePtinf
  split <;> [split; skip] <;> rfl

/-- Settles O48: the block is IDLE, so the write is `writePtinf`. -/
theorem ptinfWriteSetsTheFlags : Obligations.PtinfWriteSetsTheFlags := by
  intro s v hi
  have hreg : ∀ j : PReg, (writePtinf s v).pt.get j = _ := pointReg_writePtinf s v
  refine ⟨writePtinf s v, (winWrite_ptinf s v).trans (gated_idle hi _), fun j => ?_, fun j hj => ?_, fun hl => ?_,
    writePtinf_frame s v, writePtinf_errlog s v⟩
  · rw [hreg]
    exact ⟨rfl, rfl⟩
  · rw [hreg]
    refine if_neg fun ⟨h0, hl⟩ => ?_
    rcases hj with hj | hj
    · exact hj h0
    · rw [hj] at hl
      cases hl
  · rw [hreg]
    exact if_pos ⟨rfl, hl⟩

end Sys2Proof.Machine
end

section
/-! SUPPORT. The control and status words of the window as numbers, and the reset state (rules R40 to R49). -/

namespace Sys2Proof.Machine

open Sys2Proof.Spec

/-- Two words side by side as a number. -/
theorem toNat_append_eq_add {m n : Nat} (a : BitVec m) (b : BitVec n) : (a ++ b).toNat = 2 ^ n * a.toNat + b.toNat := by
  rw [BitVec.toNat_append, ← Nat.shiftLeft_add_eq_or_of_lt b.isLt, Nat.shiftLeft_eq, mul_comm]

theorem ctrlWord_toNat (s : State) : (ctrlWord s).toNat = s.ctrlLock.toNat + 2 * s.ctrlStrict.toNat := by
  simp only [ctrlWord, toNat_append_eq_add, BitVec.toNat_ofBool, BitVec.toNat_ofNat]
  omega

theorem statusWord_toNat (s : State) :
    (statusWord s).toNat = s.busy.toNat + 2 * s.statusDone.toNat + 2 ^ 8 * s.statusErr.toNat := by
  simp only [statusWord, toNat_append_eq_add, BitVec.toNat_ofBool, BitVec.toNat_ofNat]
  omega

theorem intenWord_toNat (s : State) : (intenWord s).toNat = s.intenDone.toNat + 2 * s.intenErr.toNat := by
  simp only [intenWord, toNat_append_eq_add, BitVec.toNat_ofBool, BitVec.toNat_ofNat]
  omega

theorem ptinfWord_toNat (s : State) :
    (ptinfWord s).toNat = (s.pointReg 0).inf.toNat + 2 * (s.pointReg 1).inf.toNat + 4 * (s.pointReg 2).inf.toNat +
      8 * (s.pointReg 3).inf.toNat := by
  change _ = s.pt[0].inf.toNat + 2 * s.pt[1].inf.toNat + 4 * s.pt[2].inf.toNat + 8 * s.pt[3].inf.toNat
  simp only [ptinfWord, toNat_append_eq_add, BitVec.toNat_ofBool, BitVec.toNat_ofNat]
  omega

theorem configWord_toNat {cfg : Config} (h : cfg.nw ≤ 32) : (configWord cfg).toNat = cfg.nw + 2 ^ 8 * 8 + 2 ^ 12 * 4 := by
  simp only [configWord, toNat_append_eq_add, BitVec.toNat_ofNat, NP, NF]
  omega

/-- Bit 0 and bits 31 to 11 of ERRLOG are 0 (rule R46). -/
theorem State.Inv.errlog_reserved {s : State} (h : s.Inv) {k : Nat} (hk : k = 0 ∨ 11 ≤ k) :
    s.errlog.getLsbD k = false := by
  by_cases h32 : k < 32
  · have hmask : ∀ i : Fin 32, i.val = 0 ∨ 11 ≤ i.val → (~~~0x7FC#32).getLsbD i = true := by decide
    have hbit : (s.errlog &&& ~~~0x7FC#32).getLsbD k = false := by rw [h.logReserved]; exact BitVec.getLsbD_zero
    rwa [BitVec.getLsbD_and, hmask ⟨k, h32⟩ hk, Bool.and_true] at hbit
  · exact BitVec.getLsbD_of_ge _ _ (by omega)

/-- Settles O42: each offset finds its register, and the word is read off field by field. -/
theorem windowReadsTheControlRegisters : Obligations.WindowReadsTheControlRegisters := fun s =>
  ⟨rfl, configWord_toNat, ctrlWord_toNat s, rfl, statusWord_toNat s, intenWord_toNat s, rfl,
    fun h _ hk => h.errlog_reserved hk, ptinfWord_toNat s⟩

/-- Settles O56: Reset takes every register's reset value, and `irq` is low with both enables at 0. -/
theorem resetClearsEverything : Obligations.ResetClearsEverything := fun s =>
  ⟨hostReset s, rfl, fieldReg_resetWith s.cfg, pointReg_resetWith s.cfg, rfl, rfl, rfl, rfl, rfl, rfl, rfl, rfl, rfl, rfl,
    rfl, rfl, rfl, rfl, rfl⟩

end Sys2Proof.Machine
end

section
/-! SUPPORT. Safe states: no step touches the pending host actions but to take the first one, and an aligned action is
taken (rules R29, R66). -/

namespace Sys2Proof.Machine

@[simp] theorem writeSlot_host (s : State) (r : SlotReg) (v : Word) : (writeSlot s r v).host = s.host := by
  cases r <;> rfl

@[simp] theorem writeSlotWord_host (s : State) (r : SlotReg) (m : Nat) (v : Word32) :
    (writeSlotWord s r m v).host = s.host := by
  unfold writeSlotWord; split <;> simp

@[simp] theorem writePtinf_host (s : State) (v : Word32) : (writePtinf s v).host = s.host := by
  rw [writePtinf_frame]

@[simp] theorem writeStatus_host (s : State) (v : Word32) : (writeStatus s v).host = s.host := by
  unfold writeStatus; split <;> rfl

/-- No window write changes the pending host actions (rule R71). -/
@[simp] theorem winWrite_host (s : State) (off : BitVec 12) (v : Word32) : (winWrite s off v).host = s.host := by
  rcases winWrite_cases s off v with h | h | h | h | ⟨-, h⟩ | ⟨-, h | h | h | ⟨r, m, -, -, h⟩⟩ <;> simp [h]

/-- A host action leaves the actions after it pending, Reset included (rule R71, log 8). -/
theorem hostAction_host {a : HostAction} {s t : State} (h : hostAction a s = .next t) : t.host = s.host := by
  rcases hostAction_cases h with ⟨x, rfl⟩ | ⟨off, v, -, rfl⟩ | ⟨-, rfl⟩
  · rfl
  · exact winWrite_host s off v
  · rfl

/-- A command leaves the pending host actions alone (rule R27). -/
theorem exec_host {i : Instr} {s t : State} (h : exec i s = .next t) : t.host = s.host := by
  rw [(exec_completed h).frame]

theorem completionStep_host {s t : State} (h : completionStep s = .next t) : t.host = s.host := by
  rcases completionStep_cases s with ⟨i, -, he⟩ | ⟨-, he⟩ <;> rw [he] at h
  · exact exec_host h
  · cases h
    rfl

/-- The block takes every aligned word access, Reset and the observation of `irq` (rule R66). -/
theorem hostAction_next {a : HostAction} (ha : a.aligned = true) (s : State) : ∃ t, hostAction a s = .next t := by
  cases a with
  | winRead off width => exact ⟨_, by rw [hostAction, Option.isNone_iff_eq_none.1 ha]⟩
  | winWrite off width v => exact ⟨_, by rw [hostAction, Option.isNone_iff_eq_none.1 ha]⟩
  | reset => exact ⟨_, rfl⟩
  | observeIrq => exact ⟨_, rfl⟩

/-- With aligned actions pending the step answers, and no action becomes pending that was not (rules R29, R250). -/
theorem step_next_of_aligned {s : State} (h : ∀ a ∈ s.host, a.aligned = true) :
    ∃ t, step s = .next t ∧ t.host ⊆ s.host := by
  rcases step_cases s with ⟨-, hs⟩ | ⟨-, -, hs⟩ | ⟨-, a, rest, hh, hs⟩
  · obtain ⟨t, ht⟩ := completionStep_next s
    exact ⟨t, hs.trans ht, by rw [completionStep_host ht]; exact List.Subset.refl _⟩
  · exact ⟨s, hs, List.Subset.refl _⟩
  · obtain ⟨t, ht⟩ := hostAction_next (h a (by simp [hh])) (deliver s rest)
    have hrest : t.host = rest := hostAction_host ht
    exact ⟨t, hs.trans ht, by rw [hrest, hh]; exact List.subset_cons_self a rest⟩

/-- Settles O22: every pending action is one the block takes, the completion step always answers, and the step keeps the
invariant. -/
theorem safeStatesNeverStop : Obligations.SafeStatesNeverStop := by
  intro s h
  obtain ⟨t, ht, hsub⟩ := step_next_of_aligned h.hostAligned
  exact ⟨t, ht, h.inv.step ht, fun a ha => h.hostAligned a (hsub ha)⟩

end Sys2Proof.Machine
end

section
/-! SUPPORT. Under the lock the curve, G and LOCK itself are kept by everything but Reset (rules R23, R42, R70). -/

namespace Sys2Proof.Machine

open Sys2Proof.Spec

/-- `t` has LOCK = 1 and the curve and G of `s` (rules R23, R70). -/
structure CurveFrozen (s t : State) : Prop where
  lock : t.ctrlLock = true
  ca : t.ca = s.ca
  cb : t.cb = s.cb
  cp : t.cp = s.cp
  cn : t.cn = s.cn
  g : t.pointReg 0 = s.pointReg 0

namespace CurveFrozen

variable {s t : State}

/-- A command whose destination is the locked `pt[0]` is illegal, and no command writes the curve (rules R27, R97). -/
theorem exec (hl : s.ctrlLock = true) {i : Instr} (h : exec i s = .next t) : CurveFrozen s t := by
  rcases exec_completed h with ⟨-, rd, v, -, -, rfl⟩ | ⟨-, rd, r, -, hlock, -, rfl⟩ | ⟨e, rfl⟩
  · exact ⟨hl, rfl, rfl, rfl, rfl, rfl⟩
  · have hrd : rd ≠ 0 := by simpa [lockedDest, hl] using hlock
    exact ⟨hl, rfl, rfl, rfl, rfl, pointReg_setPoint_ne s hrd _⟩
  · exact ⟨hl, rfl, rfl, rfl, rfl, rfl⟩

theorem completionStep (hl : s.ctrlLock = true) (h : completionStep s = .next t) : CurveFrozen s t := by
  rcases completionStep_cases s with ⟨i, -, he⟩ | ⟨-, he⟩ <;> rw [he] at h
  · exact exec hl h
  · cases h
    exact ⟨hl, rfl, rfl, rfl, rfl, rfl⟩

/-- PTINF keeps G's flag under the lock (rule R47). -/
theorem writePtinf (hl : s.ctrlLock = true) (v : Word32) : CurveFrozen s (writePtinf s v) := by
  have hg : (Machine.writePtinf s v).pointReg 0 = s.pointReg 0 := by rw [pointReg_writePtinf, if_pos ⟨rfl, hl⟩]
  refine ⟨?_, ?_, ?_, ?_, ?_, hg⟩ <;> rw [writePtinf_frame]
  exact hl

/-- A slot that the lock does not guard is neither the curve nor a coordinate of G (rule R70). -/
theorem writeSlotWord (hl : s.ctrlLock = true) (r : SlotReg) (m : Nat) (v : Word32) :
    CurveFrozen s (writeSlotWord s r m v) := by
  unfold Machine.writeSlotWord
  split
  next => exact ⟨hl, rfl, rfl, rfl, rfl, rfl⟩
  next hp =>
    rw [hl, Bool.and_true] at hp
    cases r with
    | ca | cb | cp | cn => exact absurd rfl hp
    | field i => exact ⟨hl, rfl, rfl, rfl, rfl, rfl⟩
    | ptX j | ptY j =>
      have hj : j ≠ 0 := fun h => hp (decide_eq_true h)
      exact ⟨hl, rfl, rfl, rfl, rfl, pointReg_setPoint_ne s hj _⟩

theorem writeStatus (hl : s.ctrlLock = true) (v : Word32) : CurveFrozen s (writeStatus s v) := by
  unfold Machine.writeStatus
  split <;> exact ⟨hl, rfl, rfl, rfl, rfl, rfl⟩

/-- No window write changes the frozen registers, and a write of 0 to LOCK leaves it (rules R42, R70). -/
theorem winWrite (hl : s.ctrlLock = true) (off : BitVec 12) (v : Word32) : CurveFrozen s (winWrite s off v) := by
  rcases winWrite_cases s off v with
    hw | hw | hw | hw | ⟨-, hw⟩ | ⟨-, hw | hw | hw | ⟨r, m, -, -, hw⟩⟩ <;> rw [hw]
  · exact ⟨hl, rfl, rfl, rfl, rfl, rfl⟩
  · exact writeStatus hl v
  · exact ⟨hl, rfl, rfl, rfl, rfl, rfl⟩
  · exact ⟨hl, rfl, rfl, rfl, rfl, rfl⟩
  · exact ⟨hl, rfl, rfl, rfl, rfl, rfl⟩
  · exact ⟨hl, rfl, rfl, rfl, rfl, rfl⟩
  · exact ⟨by rw [writeCtrl_ctrlLock, hl, Bool.true_or], rfl, rfl, rfl, rfl, rfl⟩
  · exact writePtinf hl v
  · exact writeSlotWord hl r m v

/-- Only Reset ends the lock (rule R42). -/
theorem hostAction (hl : s.ctrlLock = true) {a : HostAction} (ha : a ≠ .reset) (h : hostAction a s = .next t) :
    CurveFrozen s t := by
  rcases hostAction_cases h with ⟨x, rfl⟩ | ⟨off, v, -, rfl⟩ | ⟨hr, -⟩
  · exact ⟨hl, rfl, rfl, rfl, rfl, rfl⟩
  · exact winWrite hl off v
  · exact absurd hr ha

/-- A step of either agent, the host's Reset excepted (rule R14). -/
theorem step (hl : s.ctrlLock = true) (hr : s.host.head? ≠ some .reset ∨ CompletesNow s) (h : step s = .next t) :
    CurveFrozen s t := by
  rcases step_cases s with ⟨-, hs⟩ | ⟨-, -, hs⟩ | ⟨hm, a, rest, hh, hs⟩ <;> rw [hs] at h
  · exact completionStep hl h
  · cases h
    exact ⟨hl, rfl, rfl, rfl, rfl, rfl⟩
  · have hn : ¬ CompletesNow s := fun hc => by simp [(blockMoves_iff_completesNow s).2 hc] at hm
    have ha : a ≠ .reset := fun ha => (hr.resolve_right hn) (by rw [hh, ha]; rfl)
    have hd : CurveFrozen (deliver s rest) t := hostAction hl ha h
    exact { hd with }

end CurveFrozen

/-- Settles O53: neither a completion nor a host action other than Reset touches the frozen registers. -/
theorem lockFreezesTheCurve : Obligations.LockFreezesTheCurve := by
  intro s t hl hr h
  obtain ⟨lock, ca, cb, cp, cn, g⟩ := CurveFrozen.step hl hr h
  exact ⟨lock, ca, cb, cp, cn, g⟩

end Sys2Proof.Machine
end

section
/-! SUPPORT. The map of rule R61 in the statements' offsets, and what an access at each of them does (rules R62 to R70). -/

namespace Sys2Proof.Machine

open Sys2Proof.Spec

variable {s : State}

/-- The offsets of rule R67 hold no register. -/
theorem locate_offset_unmapped {nw n : Nat} (ha : n % 4 = 0) (h : Unmapped nw n) : locate nw (offset n) = .unmapped := by
  unfold Unmapped at h
  have ho := offset_toNat (by omega : n < 0x1000)
  exact locate_unmapped (by omega) (by omega)

/-- The slots' offsets whose word is below NW hold that word of a register (rules R61, R67). -/
theorem locate_offset_slot {nw n : Nat} (ha : n % 4 = 0)
    (hr : (0x080 ≤ n ∧ n < 0x280) ∨ (0x400 ≤ n ∧ n < 0xC00)) (hm : n % 128 / 4 < nw) :
    ∃ r m, locate nw (offset n) = .slot r m ∧ r.base + 4 * m = n := by
  have ho := offset_toNat (by omega : n < 0x1000)
  rw [← ho] at ha hr hm
  obtain ⟨r, m, hl, hb⟩ := locate_mapped ha hr hm
  exact ⟨r, m, hl, hb.trans ho⟩

theorem winRead_unmapped {off : BitVec 12} (h : locate s.cfg.nw off = .unmapped) : winRead s off = 0 := by
  rw [winRead, h]

theorem winWrite_unmapped {off : BitVec 12} (h : locate s.cfg.nw off = .unmapped) (v : Word32) :
    winWrite s off v = s := by
  rw [winWrite, h]

theorem winWrite_slot {off : BitVec 12} {r : SlotReg} {m : Nat} (h : locate s.cfg.nw off = .slot r m) (v : Word32) :
    winWrite s off v = gated s (writeSlotWord s r m v) := by
  rw [winWrite, h]

theorem winWrite_cmd (s : State) (v : Word32) : winWrite s (offset 0x00C) v = gated s (acceptCommand s v) := rfl

theorem winWrite_id (s : State) (v : Word32) : winWrite s (offset 0x000) v = s := rfl

theorem winWrite_config (s : State) (v : Word32) : winWrite s (offset 0x004) v = s := rfl

/-- An access of another width than 32 bits is refused at any offset (rule R66, log 3). -/
theorem accessRefusal_narrow (off : BitVec 12) {width : AccessWidth} (h : width ≠ .word) :
    accessRefusal off width = some .notWordAccess := if_pos h

theorem accessRefusal_misaligned {off : BitVec 12} (h : off.toNat % 4 ≠ 0) :
    accessRefusal off .word = some .misalignedAccess := if_pos h

theorem accessRefusal_aligned {off : BitVec 12} (h : off.toNat % 4 = 0) : accessRefusal off .word = none :=
  if_neg (not_not_intro h)

/-- A refused access is no step, read or write (rule R66). -/
theorem hostAction_refused {off : BitVec 12} {width : AccessWidth} {r : Refusal} (h : accessRefusal off width = some r)
    (v : Word32) (s : State) :
    hostAction (.winRead off width) s = .refused r ∧ hostAction (.winWrite off width v) s = .refused r := by
  simp only [hostAction, h, and_self]

/-- Settles O51: `accessRefusal` tests the width and then the alignment, and lets an aligned word write through. -/
theorem onlyAlignedWordAccessesAreTaken : Obligations.OnlyAlignedWordAccessesAreTaken := fun s off _ v =>
  ⟨fun hw => hostAction_refused (accessRefusal_narrow off hw) v s,
    fun ha => hostAction_refused (accessRefusal_misaligned ha) v s,
    fun ha => by rw [hostAction, accessRefusal_aligned ha]⟩

/-- Settles O43: ID and CONFIG are read-only, and no other of these offsets holds a register. -/
theorem readOnlyAndUnmappedIgnoreWrites : Obligations.ReadOnlyAndUnmappedIgnoreWrites := by
  rintro s n v ha (rfl | rfl | hu)
  · exact winWrite_id s v
  · exact winWrite_config s v
  · exact winWrite_unmapped (locate_offset_unmapped ha hu) v

/-- Settles O41: each offset is its word's slot offset, or is unmapped. -/
theorem windowReadsTheRegisterMap : Obligations.WindowReadsTheRegisterMap := by
  intro s hnw
  refine ⟨fun m hm => ?_, fun n ha hu => winRead_unmapped (locate_offset_unmapped ha hu), fun off ha => ?_⟩
  · have hw : ∀ r : SlotReg, winRead s (slotOffset r m) = wordOf (readSlot s r) m := fun r =>
      winRead_slotOffset hnw r hm
    exact ⟨hw .ca, hw .cb, hw .cp, hw .cn, fun i => hw (.field i), fun j => ⟨hw (.ptX j), hw (.ptY j)⟩⟩
  · rw [hostAction, accessRefusal_aligned ha]

/-- In BUSY a gated write only sets BUSYWR (rule R69). -/
theorem gated_busy (hb : s.seq = .busy) (t : State) : gated s t = s.logSet busyWrBit := by
  simp [gated, State.busy, hb]

/-- CTRL, CMD, PTINF and the slots' mapped words are the offsets behind the BUSY gate (rule R69). -/
theorem winWrite_eq_gated {n : Nat} (ha : n % 4 = 0) (hn : n < 0x1000) (hu : ¬ Unmapped s.cfg.nw n)
    (hc : n ∉ [0x000, 0x004, 0x010, 0x014, 0x018]) (v : Word32) : ∃ t, winWrite s (offset n) v = gated s t := by
  unfold Unmapped at hu
  by_cases hlow : n < 0x080
  · simp only [List.mem_cons, List.not_mem_nil, or_false, not_or] at hc
    obtain rfl | rfl | rfl : n = 0x008 ∨ n = 0x00C ∨ n = 0x01C := by omega
    · exact ⟨_, winWrite_ctrl s v⟩
    · exact ⟨_, winWrite_cmd s v⟩
    · exact ⟨_, winWrite_ptinf s v⟩
  · obtain ⟨r, m, hl, -⟩ := locate_offset_slot (nw := s.cfg.nw) ha (by omega) (by omega)
    exact ⟨_, winWrite_slot hl v⟩

/-- Settles O45: the offsets named are gated, and the gate is shut; the other three writes pass no gate. -/
theorem busyGateDropsWrites : Obligations.BusyGateDropsWrites := by
  intro s v hb
  refine ⟨fun n ha hn hu hc => ?_, winWrite_status s v, winWrite_inten s v, winWrite_errlog s v⟩
  obtain ⟨t, ht⟩ := winWrite_eq_gated ha hn hu hc v
  exact ht.trans (gated_busy hb t)

/-- The protected slots are those of the curve and of G (rules R61, R70). -/
theorem SlotReg.lockProtected_iff (r : SlotReg) :
    r.lockProtected = true ↔ r.base < 0x280 ∨ (0x800 ≤ r.base ∧ r.base < 0x900) := by
  cases r <;> simp only [SlotReg.lockProtected, SlotReg.base] <;> decide +revert

/-- Under the lock a write to a protected slot only sets LOCKWR (rule R70). -/
theorem writeSlotWord_locked (hl : s.ctrlLock = true) {r : SlotReg} (hr : r.lockProtected = true) (m : Nat)
    (v : Word32) : writeSlotWord s r m v = s.logSet lockWrBit :=
  if_pos (by rw [hr, hl]; rfl)

/-- Settles O50: the offset is a mapped word of a protected slot, the BUSY gate is open and the LOCK gate is shut. -/
theorem lockGateDropsWrites : Obligations.LockGateDropsWrites := by
  intro s n v hi hlock ha hm hr
  obtain ⟨r, m, hl, hb⟩ := locate_offset_slot (nw := s.cfg.nw) ha (by omega) hm
  have hmw := (lt_of_locate hl).2
  have hbase := r.base_range
  have hprot : r.lockProtected = true := r.lockProtected_iff.2 (by omega)
  rw [winWrite_slot hl, gated_idle hi, writeSlotWord_locked hlock hprot]
  rfl

end Sys2Proof.Machine
end

section
/-! SUPPORT. The bytes of a slot on a byte-addressed bus (rule R63). -/

namespace Sys2Proof.Machine

open Sys2Proof.Spec

/-- Masking the lowest two bits of an offset rounds it down to a multiple of 4. -/
theorem and_not_three_toNat (off : BitVec 12) : (off &&& ~~~3#12).toNat = 4 * (off.toNat / 4) := by
  have hmask : ∀ i : Fin 12, (~~~3#12).getLsbD i = !decide (i.val < 2) := by decide
  have hshift : off &&& ~~~3#12 = off >>> 2 <<< 2 := by
    apply BitVec.eq_of_getLsbD_eq
    intro i hi
    rw [BitVec.getLsbD_and, hmask ⟨i, hi⟩, BitVec.getLsbD_shiftLeft, BitVec.getLsbD_ushiftRight]
    by_cases h2 : i < 2
    · simp [h2]
    · simp [h2, hi, Nat.add_sub_cancel' (Nat.le_of_not_lt h2)]
  have hlt := off.isLt
  rw [hshift, BitVec.toNat_shiftLeft, BitVec.toNat_ushiftRight, Nat.shiftRight_eq_div_pow, Nat.shiftLeft_eq]
  omega

/-- Byte `k` of word `m` of a register is its byte `4 * m + k` (rules R62, R63). -/
theorem extractLsb'_getWord (r : Word) (m : Nat) {k : Nat} (hk : k < 4) :
    (getWord r m).extractLsb' (8 * k) 8 = r.extractLsb' (8 * (4 * m + k)) 8 := by
  apply BitVec.eq_of_getLsbD_eq
  intro i hi
  have hbit : 8 * k + i < 32 := by omega
  have hsum : 32 * m + (8 * k + i) = 8 * (4 * m + k) + i := by omega
  simp [getWord, BitVec.getLsbD_extractLsb', hbit, hsum]

/-- The byte `b` bytes into a register's slot is byte `b` of its number (rule R63). -/
theorem busByte_slot {s : State} {b : Nat} (hnw : s.cfg.nw ≤ 32) (hb : b < 4 * s.cfg.nw) (r : SlotReg) :
    (busByte s (offset (r.base + b))).toNat = (readSlot s r).toNat / 2 ^ (8 * b) % 256 := by
  have hr := r.base_range
  have ho := offset_toNat (by omega : r.base + b < 0x1000)
  have hword : offset (r.base + b) &&& ~~~3#12 = slotOffset r (b / 4) := by
    apply BitVec.eq_of_toNat_eq
    rw [and_not_three_toNat, ho, slotOffset_toNat r (by omega)]
    omega
  have hbyte : (offset (r.base + b)).toNat % 4 = b % 4 := by omega
  rw [busByte, hword, hbyte, winRead_slotOffset hnw r (by omega), extractLsb'_getWord _ _ (Nat.mod_lt b (by decide)),
    Nat.div_add_mod, BitVec.extractLsb'_toNat, Nat.shiftRight_eq_div_pow]

/-- Settles O52: each offset is a byte of its register's slot. -/
theorem slotBytesAreLittleEndian : Obligations.SlotBytesAreLittleEndian := by
  intro s b hnw hb
  have hbyte := busByte_slot hnw hb
  exact ⟨hbyte .ca, hbyte .cb, hbyte .cp, hbyte .cn, fun i => hbyte (.field i),
    fun j => ⟨hbyte (.ptX j), hbyte (.ptY j)⟩⟩

end Sys2Proof.Machine
end

section
/-! SUPPORT. The decoder and the encoder are inverse (rules R91 to R97): a command's fields decode to it, and fields
that decode are those of their command. -/

namespace Sys2Proof

/-- A bit vector is the one of its own number. -/
theorem eq_ofNat_of_toNat {w n : Nat} {b : BitVec w} (h : b.toNat = n) : b = BitVec.ofNat w n := by
  rw [← h, BitVec.ofNat_toNat, BitVec.setWidth_eq]

/-- The decoder's `return` succeeds with its value. -/
theorem pure_eq_ok {ε α : Type} {a b : α} : (pure a : Except ε α) = .ok b ↔ a = b := by
  simp [pure, Except.pure]

/-- What format FR1 asks of the fields (rule R92). -/
theorem decodeFR1_eq_ok {negFree : Bool} {x : Fields} {r : FReg × FReg} :
    decodeFR1 negFree x = .ok r ↔ x.rs2 = 0 ∧ x.imm8 = 0 ∧ (negFree || !x.neg) = true ∧
      x.rd = BitVec.ofNat 4 r.1 ∧ x.rs1 = BitVec.ofNat 4 r.2 := by
  obtain ⟨rd, rs1⟩ := r
  simp [decodeFR1, bind_eq_ok, pure_eq_ok, fieldIndex_eq_ok, -bind_pure_comp]

/-- What format FR2 asks of the fields (rule R92). -/
theorem decodeFR2_eq_ok {negFree : Bool} {x : Fields} {r : FReg × FReg × FReg} :
    decodeFR2 negFree x = .ok r ↔ x.imm8 = 0 ∧ (negFree || !x.neg) = true ∧
      x.rd = BitVec.ofNat 4 r.1 ∧ x.rs1 = BitVec.ofNat 4 r.2.1 ∧ x.rs2 = BitVec.ofNat 4 r.2.2 := by
  obtain ⟨rd, rs1, rs2⟩ := r
  simp [decodeFR2, bind_eq_ok, pure_eq_ok, fieldIndex_eq_ok, -bind_pure_comp]

/-- The fields of a command decode to it (rules R91 to R93). -/
theorem decodeFields_encodeFields (i : Instr) : decodeFields (encodeFields i) = .ok i := by
  cases i with
  | norm | minv =>
    simp [decodeFields, decodeOpcode, encodeFields, plainFields, bind_eq_ok, pure_eq_ok, decodeFR1_eq_ok,
      -bind_pure_comp]
  | normw | madd | msub | mmul | mpow =>
    simp [decodeFields, decodeOpcode, encodeFields, plainFields, bind_eq_ok, pure_eq_ok, decodeFR2_eq_ok,
      -bind_pure_comp]
  | padd | smul | pdec =>
    simp [decodeFields, decodeOpcode, encodeFields, plainFields, bind_eq_ok, pure_eq_ok, -bind_pure_comp]

/-- Fields that decode are those of the command they decode to: each arm of the decoder fixes every field (rule R92). -/
theorem eq_encodeFields_of_decodeFields {x : Fields} {i : Instr} (h : decodeFields x = .ok i) :
    x = encodeFields i := by
  obtain ⟨op, rd, rs1, rs2, imm8, neg, reserved⟩ := x
  unfold decodeFields at h
  split at h
  · rename_i hres
    obtain rfl : reserved = 0 := hres
    unfold decodeOpcode at h
    split at h
    case h_1 hop | h_6 hop =>
      simp only [bind_eq_ok, pure_eq_ok, decodeFR1_eq_ok] at h
      obtain ⟨r, hr, rfl⟩ := h
      obtain rfl : op = _ := eq_ofNat_of_toNat hop
      simp_all [encodeFields, plainFields]
    case h_2 hop | h_3 hop | h_4 hop | h_5 hop | h_7 hop =>
      simp only [bind_eq_ok, pure_eq_ok, decodeFR2_eq_ok] at h
      obtain ⟨r, hr, rfl⟩ := h
      obtain rfl : op = _ := eq_ofNat_of_toNat hop
      simp_all [encodeFields, plainFields]
    case h_11 => cases h
    all_goals simp only [bind_eq_ok, pure_eq_ok, mustBeZero_eq_ok, fieldIndex_eq_ok, pointIndex_eq_ok, exists_const,
      decide_eq_true_eq, Bool.not_eq_true'] at h
    case h_8 hop =>
      obtain ⟨rfl, rfl, _, rfl, _, rfl, _, rfl, rfl⟩ := h
      obtain rfl : op = _ := eq_ofNat_of_toNat hop
      rfl
    case h_9 hop | h_10 hop =>
      obtain ⟨rfl, _, rfl, _, rfl, _, rfl, rfl⟩ := h
      obtain rfl : op = _ := eq_ofNat_of_toNat hop
      rfl
  · cases h

/-- Fields decode to a command exactly when they are its fields (rules R91 to R97). -/
theorem decodeFields_eq_ok {x : Fields} {i : Instr} : decodeFields x = .ok i ↔ x = encodeFields i :=
  ⟨eq_encodeFields_of_decodeFields, fun h => h ▸ decodeFields_encodeFields i⟩

/-- A word decodes to a command exactly when it is that command's encoding (rules R91 to R97). -/
theorem decode_eq_ok {c : Word32} {i : Instr} : decode c = .ok i ↔ c = encode i := by
  rw [decode, decodeFields_eq_ok, encode, ← toWord_inj, toWord_ofWord]

/-- Settles O14: the word is the command's encoding, so it decodes to that command. -/
theorem decodeOfEncodeIsTheInstruction : Obligations.DecodeOfEncodeIsTheInstruction := fun _ => decode_eq_ok.2 rfl

/-- Settles O15: a word decodes only to a command whose encoding it is. -/
theorem encodeOfDecodeIsTheWord : Obligations.EncodeOfDecodeIsTheWord := fun _ _ h => (decode_eq_ok.1 h).symm

/-- Settles O13: each word is the encoding of its command. -/
theorem workedEncodingsDecode : Obligations.WorkedEncodingsDecode := by
  simp only [Obligations.WorkedEncodingsDecode, decode_eq_ok]
  decide

end Sys2Proof
end

section
/-! SUPPORT. Well-formed fields are the fields of a command, and a row's mask leaves exactly the bits that its format
fixes (rules R92, R93, R97). -/

namespace Sys2Proof

theorem admits_field_iff {b : BitVec 4} : IndexRole.field.admits b = true ↔ ∃ i : FReg, b = BitVec.ofNat 4 i := by
  revert b; decide

theorem admits_point_iff {b : BitVec 4} : IndexRole.point.admits b = true ↔ ∃ i : PReg, b = BitVec.ofNat 4 i := by
  revert b; decide

theorem admits_zero_iff {b : BitVec 4} : IndexRole.zero.admits b = true ↔ b = 0 := by
  revert b; decide

/-- The encoder's fields are well-formed, by the family's lemma of each command (rules R92, R97). -/
theorem wellFormed_encodeFields : ∀ i : Instr, (encodeFields i).wellFormed = true
  | .norm .. => Laws.FieldsFitFormat.norm ..
  | .normw .. => Laws.FieldsFitFormat.normw ..
  | .madd .. => Laws.FieldsFitFormat.madd ..
  | .msub .. => Laws.FieldsFitFormat.msub ..
  | .mmul .. => Laws.FieldsFitFormat.mmul ..
  | .minv .. => Laws.FieldsFitFormat.minv ..
  | .mpow .. => Laws.FieldsFitFormat.mpow ..
  | .padd .. => Laws.FieldsFitFormat.padd ..
  | .smul .. => Laws.FieldsFitFormat.smul ..
  | .pdec .. => Laws.FieldsFitFormat.pdec ..

/-- What the format of a well-formed word's opcode asks of the other fields (rules R92, R97). -/
theorem wellFormed_iff_of_formatOf {x : Fields} {fmt : Format} {negFree : Bool}
    (hf : formatOf x.opcode = some (fmt, negFree)) :
    x.wellFormed = true ↔ x.reserved = 0 ∧ fmt.roles.1.admits x.rd = true ∧ fmt.roles.2.1.admits x.rs1 = true ∧
      fmt.roles.2.2.admits x.rs2 = true ∧ (fmt = .pd ∨ x.imm8 = 0) ∧ (negFree = true ∨ x.neg = false) := by
  simp only [Fields.wellFormed, hf, Bool.and_eq_true, Bool.or_eq_true, decide_eq_true_eq, Bool.not_eq_true', and_assoc]

/-- Well-formed fields are those of a command: its opcode's, whose format fixes every field that is not an operand. -/
theorem exists_encodeFields_of_wellFormed {x : Fields} (h : x.wellFormed = true) : ∃ i, x = encodeFields i := by
  obtain ⟨op, rd, rs1, rs2, imm8, neg, reserved⟩ := x
  cases hf : formatOf op with
  | none => simp [Fields.wellFormed, hf] at h
  | some f =>
    rw [wellFormed_iff_of_formatOf hf] at h
    unfold formatOf at hf
    split at hf <;> cases hf
    all_goals
      rename_i hop
      obtain rfl : op = _ := eq_ofNat_of_toNat hop
      simp only [Format.roles, admits_field_iff, admits_point_iff, admits_zero_iff, reduceCtorEq, false_or, true_or,
        Bool.false_eq_true, true_and, and_true] at h
    case h_1 =>
      obtain ⟨rfl, ⟨_, rfl⟩, ⟨_, rfl⟩, rfl, rfl⟩ := h
      exact ⟨.norm neg _ _, rfl⟩
    case h_2 =>
      obtain ⟨rfl, ⟨_, rfl⟩, ⟨_, rfl⟩, ⟨_, rfl⟩, rfl⟩ := h
      exact ⟨.normw neg _ _ _, rfl⟩
    case h_3 =>
      obtain ⟨rfl, ⟨_, rfl⟩, ⟨_, rfl⟩, ⟨_, rfl⟩, rfl, rfl⟩ := h
      exact ⟨.madd _ _ _, rfl⟩
    case h_4 =>
      obtain ⟨rfl, ⟨_, rfl⟩, ⟨_, rfl⟩, ⟨_, rfl⟩, rfl, rfl⟩ := h
      exact ⟨.msub _ _ _, rfl⟩
    case h_5 =>
      obtain ⟨rfl, ⟨_, rfl⟩, ⟨_, rfl⟩, ⟨_, rfl⟩, rfl, rfl⟩ := h
      exact ⟨.mmul _ _ _, rfl⟩
    case h_6 =>
      obtain ⟨rfl, ⟨_, rfl⟩, ⟨_, rfl⟩, rfl, rfl, rfl⟩ := h
      exact ⟨.minv _ _, rfl⟩
    case h_7 =>
      obtain ⟨rfl, ⟨_, rfl⟩, ⟨_, rfl⟩, ⟨_, rfl⟩, rfl, rfl⟩ := h
      exact ⟨.mpow _ _ _, rfl⟩
    case h_8 =>
      obtain ⟨rfl, ⟨_, rfl⟩, ⟨_, rfl⟩, ⟨_, rfl⟩, rfl, rfl⟩ := h
      exact ⟨.padd _ _ _, rfl⟩
    case h_9 =>
      obtain ⟨rfl, ⟨_, rfl⟩, ⟨_, rfl⟩, ⟨_, rfl⟩, rfl⟩ := h
      exact ⟨.smul neg _ _ _, rfl⟩
    case h_10 =>
      obtain ⟨rfl, ⟨_, rfl⟩, ⟨_, rfl⟩, ⟨_, rfl⟩, rfl⟩ := h
      exact ⟨.pdec imm8 _ _ _, rfl⟩

/-- Fields are well-formed exactly when a command has them (rules R92, R97). -/
theorem wellFormed_iff {x : Fields} : x.wellFormed = true ↔ ∃ i, x = encodeFields i :=
  ⟨exists_encodeFields_of_wellFormed, fun ⟨i, h⟩ => h ▸ wellFormed_encodeFields i⟩

/-- Settles O17: on both sides the fields are those of a command. -/
theorem decodeAcceptsExactlyWellFormedFields : Obligations.DecodeAcceptsExactlyWellFormedFields := by
  intro c
  simp only [decode, decodeFields_eq_ok, wellFormed_iff]

/-- The bits of an index field that a role fixes to 0 (rule R92). -/
def IndexRole.mask : IndexRole → BitVec 4
  | .field => 0x8
  | .point => 0xC
  | .zero => 0xF

theorem IndexRole.admits_iff_mask (r : IndexRole) (b : BitVec 4) : r.admits b = true ↔ b &&& r.mask = 0 := by
  cases r <;> revert b <;> decide

/-- The bits of a command word that a format fixes, by field (rules R92, R96). -/
def Format.maskFields (fmt : Format) (negFree : Bool) : Fields where
  opcode := 0xFF
  rd := fmt.roles.1.mask
  rs1 := fmt.roles.2.1.mask
  rs2 := fmt.roles.2.2.mask
  imm8 := if fmt = .pd then 0 else 0xFF
  neg := !negFree
  reserved := 7

/-- The opcode of a row of the map (rule R93). -/
def OpcodeRow.opcode (r : OpcodeRow) : BitVec 8 := (Fields.ofWord r.matchWord).opcode

/-- A row's match is its opcode with other fields 0, and its mask is that of the opcode's format (rules R92, R93). -/
theorem opcodeTable_rows : ∀ r ∈ opcodeTable,
    r.matchWord = (plainFields r.opcode.toNat 0 0 0).toWord ∧
    (formatOf r.opcode).map (fun f => (f.1.maskFields f.2).toWord) = some r.mask := by decide

/-- In the map a mnemonic and an opcode name the same row (rule R93). -/
theorem mnemonic_eq_iff_opcode_eq : ∀ r ∈ opcodeTable, ∀ q ∈ opcodeTable,
    (r.mnemonic = q.mnemonic ↔ r.opcode = q.opcode) := by decide

/-- Every command has its row (rule R93). -/
theorem Instr.exists_row :
    ∀ i : Instr, ∃ r ∈ opcodeTable, r.mnemonic = i.mnemonic ∧ r.opcode = (encodeFields i).opcode
  | .norm .. => ⟨_, List.mem_of_getElem? (i := 0) rfl, rfl, rfl⟩
  | .normw .. => ⟨_, List.mem_of_getElem? (i := 1) rfl, rfl, rfl⟩
  | .madd .. => ⟨_, List.mem_of_getElem? (i := 2) rfl, rfl, rfl⟩
  | .msub .. => ⟨_, List.mem_of_getElem? (i := 3) rfl, rfl, rfl⟩
  | .mmul .. => ⟨_, List.mem_of_getElem? (i := 4) rfl, rfl, rfl⟩
  | .minv .. => ⟨_, List.mem_of_getElem? (i := 5) rfl, rfl, rfl⟩
  | .mpow .. => ⟨_, List.mem_of_getElem? (i := 6) rfl, rfl, rfl⟩
  | .padd .. => ⟨_, List.mem_of_getElem? (i := 7) rfl, rfl, rfl⟩
  | .smul .. => ⟨_, List.mem_of_getElem? (i := 8) rfl, rfl, rfl⟩
  | .pdec .. => ⟨_, List.mem_of_getElem? (i := 9) rfl, rfl, rfl⟩

/-- A command has a row's mnemonic exactly when its opcode is the row's (rule R93). -/
theorem Instr.mnemonic_eq_iff {i : Instr} {r : OpcodeRow} (hr : r ∈ opcodeTable) :
    i.mnemonic = r.mnemonic ↔ (encodeFields i).opcode = r.opcode := by
  obtain ⟨q, hq, hm, ho⟩ := i.exists_row
  rw [← hm, ← ho]
  exact mnemonic_eq_iff_opcode_eq q hq r hr

/-- Under an opcode's format the masked bits of a word are 0 but for the opcode exactly when the fields are
well-formed and of that opcode (rules R92, R93). -/
theorem and_maskFields_iff {fmt : Format} {negFree : Bool} {op : BitVec 8} (hf : formatOf op = some (fmt, negFree))
    (x : Fields) : x.toWord &&& (fmt.maskFields negFree).toWord = (plainFields op.toNat 0 0 0).toWord ↔
      x.opcode = op ∧ x.wellFormed = true := by
  have hop : x.opcode &&& 0xFF = x.opcode := BitVec.and_allOnes
  have hres : x.reserved &&& 7 = x.reserved := BitVec.and_allOnes
  have himm : x.imm8 &&& (if fmt = .pd then 0 else 0xFF) = 0 ↔ fmt = .pd ∨ x.imm8 = 0 := by
    have hall : x.imm8 &&& 0xFF = x.imm8 := BitVec.and_allOnes
    split
    case isTrue hpd => simp [hpd]
    case isFalse hpd => rw [hall, or_iff_right hpd]
  have hneg : (x.neg && !negFree) = false ↔ negFree = true ∨ x.neg = false := by
    cases negFree <;> simp
  rw [toWord_and, toWord_inj]
  simp only [plainFields, Format.maskFields, Fields.mk.injEq, BitVec.ofNat_toNat, BitVec.setWidth_eq, hop, hres]
  refine and_congr_right fun h => ?_
  simp only [wellFormed_iff_of_formatOf (h ▸ hf), IndexRole.admits_iff_mask, ← himm, ← hneg]
  tauto

/-- A row's mask and match pick the well-formed words of its opcode (rule R93). -/
theorem and_mask_iff {r : OpcodeRow} (hr : r ∈ opcodeTable) (c : Word32) :
    c &&& r.mask = r.matchWord ↔ (Fields.ofWord c).opcode = r.opcode ∧ (Fields.ofWord c).wellFormed = true := by
  obtain ⟨hmatch, hmask⟩ := opcodeTable_rows r hr
  obtain ⟨⟨fmt, negFree⟩, hf, hmask⟩ := Option.map_eq_some_iff.1 hmask
  rw [hmatch, ← hmask, ← and_maskFields_iff hf, toWord_ofWord]

/-- Settles O16: both sides say that the fields are those of a command with the row's opcode. -/
theorem decodeAgreesWithMatchAndMask : Obligations.DecodeAgreesWithMatchAndMask := by
  intro c r hr
  simp only [and_mask_iff hr, wellFormed_iff, decode, decodeFields_eq_ok, Instr.mnemonic_eq_iff hr]
  constructor
  · rintro ⟨hop, i, hi⟩
    exact ⟨i, hi, hi ▸ hop⟩
  · rintro ⟨i, hi, hop⟩
    exact ⟨hi ▸ hop, i, hi⟩

/-- A word matches no row exactly when it does not decode (rules R93, R97). -/
theorem no_row_iff {c : Word32} :
    (∀ r ∈ opcodeTable, c &&& r.mask ≠ r.matchWord) ↔ ∀ i, decode c ≠ .ok i := by
  constructor
  · intro h i hi
    obtain ⟨r, hr, hm, -⟩ := i.exists_row
    exact h r hr ((decodeAgreesWithMatchAndMask c r hr).2 ⟨i, hi, hm.symm⟩)
  · intro h r hr hc
    obtain ⟨i, hi, -⟩ := (decodeAgreesWithMatchAndMask c r hr).1 hc
    exact h i hi

end Sys2Proof
end

section
/-! SUPPORT. The common checks of a due command (rules R97, R101), and the acceptance of a command word. -/

namespace Sys2Proof.Machine

open Sys2Proof.Spec

variable {s : State}

/-- A point-register field is 0 exactly for `pt[0]` (rule R92). -/
theorem ofNat_preg_eq_zero {rd : PReg} : BitVec.ofNat 4 rd = 0 ↔ rd = 0 := by revert rd; decide

/-- Condition 5 of rule R97 in the fields of a command. -/
theorem wellFormed_eq_false_iff (i : Instr) (lock : Bool) :
    i.wellFormed lock = false ↔
      lock = true ∧ (encodeFields i).opcode.toNat ∈ [0x10, 0x11, 0x12] ∧ (encodeFields i).rd = 0 := by
  cases i with
  | norm | normw | madd | msub | mmul | minv | mpow => simp [Instr.wellFormed, encodeFields, plainFields]
  | padd | smul | pdec =>
    simp only [Instr.wellFormed, encodeFields, plainFields, ofNat_preg_eq_zero]
    simp

/-- A word that decodes is illegal exactly by condition 5 of rule R97. -/
theorem illegalWord_iff_of_decode {c : Word32} {i : Instr} (h : decode c = .ok i) :
    IllegalWord s c ↔ i.wellFormed s.ctrlLock = false := by
  have hrow : ¬ ∀ r ∈ opcodeTable, c &&& r.mask ≠ r.matchWord := fun hn => no_row_iff.1 hn i h
  have hfields : Fields.ofWord c = encodeFields i := decodeFields_eq_ok.1 h
  rw [wellFormed_eq_false_iff, ← hfields]
  exact or_iff_right hrow

/-- Every command is its own rule's outcome behind the common checks (rule R101). -/
theorem exec_eq_checked (i : Instr) (s : State) :
    ∃ own, exec i s = .next (complete s (checked s (!i.wellFormed s.ctrlLock) own)) := by
  cases i with
  | norm | normw | madd | msub | mmul | minv | mpow => exact ⟨_, rfl⟩
  | padd | smul | pdec =>
    simp only [Instr.wellFormed, Bool.not_not]
    exact ⟨_, rfl⟩

/-- A point command with a locked destination completes with code 8, whatever the modulus (rules R97, R255). -/
theorem exec_illegal {i : Instr} (h : i.wellFormed s.ctrlLock = false) : exec i s = .next (errorDone s 8) := by
  obtain ⟨own, he⟩ := exec_eq_checked i s
  rw [he, h]
  rfl

/-- A legal command under a modulus of 3 or less completes with code 2 (rule R256). -/
theorem exec_small {i : Instr} (h : i.wellFormed s.ctrlLock = true) (hp : s.cp.toNat ≤ 3) :
    exec i s = .next (errorDone s 2) := by
  obtain ⟨own, he⟩ := exec_eq_checked i s
  have hc : checked s false own = .error .invalidCurveParameters := if_pos hp
  rw [he, h, Bool.not_true, hc]
  rfl

/-- When a command is due the step is its completion (log 1, log 9). -/
theorem step_of_completesNow (h : CompletesNow s) : step s = completionStep s :=
  if_pos ((blockMoves_iff_completesNow s).2 h)

/-- Settles O18: the step is the completion step, which executes what the word decodes to. -/
theorem stepRunsTheDecodedCommand : Obligations.StepRunsTheDecodedCommand := by
  intro s i hs hi
  rw [step_of_completesNow hs, completionStep, hi]

/-- Settles O19: a word that does not decode, and a point command with a locked destination, end with code 8 before the
modulus is looked at; every other word is a legal command. -/
theorem commonChecksComeFirst : Obligations.CommonChecksComeFirst := by
  intro s hs
  rw [step_of_completesNow hs]
  rcases completionStep_cases s with ⟨i, hi, he⟩ | ⟨hn, he⟩
  · rw [he, illegalWord_iff_of_decode hi, Bool.not_eq_false]
    exact ⟨exec_illegal, exec_small⟩
  · exact ⟨fun _ => he, fun hl => absurd (.inl (no_row_iff.2 hn)) hl⟩

/-- Settles O46: in IDLE the gate is open, and the write is the acceptance. -/
theorem cmdWriteAcceptsInIdle : Obligations.CmdWriteAcceptsInIdle := by
  rintro s _ c hi rfl
  rw [winWrite_cmd, gated_idle hi]
  rfl

end Sys2Proof.Machine
end

section
/-! SUPPORT. The command word as the statements write it (rule R91). -/

namespace Sys2Proof

open Sys2Proof.Spec

/-- Fields without reserved bits are laid out as rule R91 says. -/
theorem toWord_eq_commandWord {x : Fields} (h : x.reserved = 0) :
    x.toWord = commandWord x.opcode.toNat x.rd.toNat x.rs1.toNat x.rs2.toNat x.imm8.toNat x.neg.toNat := by
  apply BitVec.eq_of_toNat_eq
  have hlt := x.toWord.isLt
  rw [toNat_toWord, h, BitVec.ofNat_eq_ofNat, BitVec.toNat_zero, Nat.mul_zero, Nat.add_zero] at hlt ⊢
  rw [commandWord, BitVec.toNat_ofNat, Nat.mod_eq_of_lt hlt]

/-- The one word of a command, from the numbers of its fields (rules R91 to R97). -/
theorem encodedAs_commandWord (i : Instr) :
    EncodedAs i (commandWord (encodeFields i).opcode.toNat (encodeFields i).rd.toNat (encodeFields i).rs1.toNat
      (encodeFields i).rs2.toNat (encodeFields i).imm8.toNat (encodeFields i).neg.toNat) := by
  intro w
  have hres : (encodeFields i).reserved = 0 := by cases i <;> rfl
  rw [decode_eq_ok, encode, toWord_eq_commandWord hres]

/-- A field-register index fits its four bits (rule R92). -/
theorem toNat_ofNat_freg (i : FReg) : (BitVec.ofNat 4 i).toNat = i := by revert i; decide

/-- The one word of a command on field registers without a tag (rules R91, R92). -/
theorem encodedAs_fieldWord {i : Instr} {opcode : Nat} {rd rs1 rs2 : FReg} {neg : Bool} (hop : opcode < 2 ^ 8)
    (h : encodeFields i = { plainFields opcode rd rs1 rs2 with neg := neg }) :
    EncodedAs i (commandWord opcode rd rs1 rs2 0 neg.toNat) := by
  have hw := encodedAs_commandWord i
  simp only [h, plainFields, toNat_ofNat_freg, BitVec.toNat_ofNat opcode, Nat.mod_eq_of_lt hop] at hw
  exact hw

end Sys2Proof
end

section
/-! SUPPORT. Every field command as an equation in its operands (rules R120 to R131), and how an own rule decides the
outcome. -/

namespace Sys2Proof.Machine

open Sys2Proof.Spec

variable {s : State}

/-- A field command's value is the destination of its end state (rule R259). -/
theorem fieldCommand_fieldDone (h : 3 < modulus s) (rd : FReg) (v : Nat) :
    fieldCommand s rd (.ok v) = .next (fieldDone s rd v) := fieldCommand_ok h rd v

/-- The own rule of a field command matters only above the small moduli (rules R101, R256). -/
theorem fieldCommand_congr {rd : FReg} {own own' : Except ErrKind Nat} (h : 3 < modulus s → own = own') :
    fieldCommand s rd own = fieldCommand s rd own' := by
  by_cases hp : 3 < modulus s
  · rw [h hp]
  · rw [fieldCommand_small (Nat.not_lt.1 hp), fieldCommand_small (Nat.not_lt.1 hp)]

/-- Congruent integers have the same residue, for every modulus (rule R122). -/
theorem normalize_congr {u v : Int} {p : Nat} (h : u ≡ v [ZMOD p]) : normalize u p = normalize v p :=
  congrArg Int.toNat h

/-- NORM as an equation (rule R123). -/
theorem exec_norm (neg : Bool) (rd x : FReg) (s : State) :
    exec (.norm neg rd x) s = fieldCommand s rd (.ok (normalize (signed neg (fieldOperand s x)) (modulus s))) := rfl

/-- NORMW as an equation (rule R124). -/
theorem exec_normw (neg : Bool) (rd x y : FReg) (s : State) :
    exec (.normw neg rd x y) s =
      fieldCommand s rd (.ok (normalize (signed neg (wideMagnitude s x y)) (modulus s))) := rfl

/-- MADD as an equation: the exact sum, reduced (rule R125). -/
theorem exec_madd (rd x y : FReg) (s : State) :
    exec (.madd rd x y) s = fieldCommand s rd (.ok ((fieldOperand s x + fieldOperand s y) % modulus s)) := by
  rw [← normalize_natCast, Nat.cast_add]
  rfl

/-- MSUB as an equation (rule R126). -/
theorem exec_msub (rd x y : FReg) (s : State) :
    exec (.msub rd x y) s =
      fieldCommand s rd (.ok (normalize ((fieldOperand s x : Int) - fieldOperand s y) (modulus s))) := rfl

/-- MMUL as an equation: the exact product, reduced (rule R127). -/
theorem exec_mmul (rd x y : FReg) (s : State) :
    exec (.mmul rd x y) s = fieldCommand s rd (.ok (fieldOperand s x * fieldOperand s y % modulus s)) := by
  rw [← normalize_natCast, Nat.cast_mul]
  rfl

/-- MINV as an equation (rule R129). -/
theorem exec_minv (rd x : FReg) (s : State) :
    exec (.minv rd x) s = fieldCommand s rd (modInverse (fieldOperand s x) (modulus s)) := rfl

/-- MPOW as an equation: the power, reduced (rules R130, R131). -/
theorem exec_mpow (rd x y : FReg) (s : State) :
    exec (.mpow rd x y) s = fieldCommand s rd (.ok (fieldOperand s x ^ fieldOperand s y % modulus s)) :=
  fieldCommand_congr fun hp => by rw [modPow_eq _ _ (by omega)]

/-- MINV writes the number that meets the contract of the inverse (rules R128, R129). -/
theorem exec_minv_of_isInverse {rd x : FReg} {u : Nat} (hp : 3 < s.cp.toNat)
    (hu : IsInverse s.cp.toNat (fieldOperand s x) u) : exec (.minv rd x) s = .next (fieldDone s rd u) := by
  have hinv : modInverse (fieldOperand s x) (modulus s) = .ok u :=
    (modInverse_eq_ok (p := s.cp.toNat) (by omega)).2 hu
  rw [exec_minv, hinv, fieldCommand_fieldDone hp]

/-- Settles O1: the own rule's value is the residue of the signed magnitude. -/
theorem normReducesSignedMagnitude : Obligations.NormReducesSignedMagnitude := fun neg rd rs1 s =>
  ⟨fun hp => (exec_norm neg rd rs1 s).trans (fieldCommand_fieldDone hp rd _), exec_small rfl,
    encodedAs_fieldWord (rs2 := 0) (by decide) rfl⟩

/-- Settles O2: the own rule's value is the residue of the signed 2W-bit magnitude. -/
theorem normwReducesDoubleWidth : Obligations.NormwReducesDoubleWidth := fun neg rd rs1 rs2 s =>
  ⟨fun hp => (exec_normw neg rd rs1 rs2 s).trans (fieldCommand_fieldDone hp rd _), exec_small rfl,
    encodedAs_fieldWord (by decide) rfl⟩

/-- Settles O3: on the exact sum, a natural number, `normalize` is the remainder. -/
theorem maddAddsModP : Obligations.MaddAddsModP := fun rd rs1 rs2 s =>
  ⟨fun hp => (exec_madd rd rs1 rs2 s).trans (fieldCommand_fieldDone hp rd _), exec_small rfl,
    encodedAs_fieldWord (neg := false) (by decide) rfl⟩

/-- Settles O4: the residue of the exact difference is canonical and congruent to it. -/
theorem msubSubtractsModP : Obligations.MsubSubtractsModP := by
  intro rd rs1 rs2 s
  refine ⟨fun hp => ?_, exec_small rfl, encodedAs_fieldWord (neg := false) (by decide) rfl⟩
  have hpos : 0 < s.cp.toNat := by omega
  exact ⟨_, normalize_lt _ hpos, (normalize_modEq _ hpos).dvd,
    (exec_msub rd rs1 rs2 s).trans (fieldCommand_fieldDone hp rd _)⟩

/-- Settles O5: on the exact product, a natural number, `normalize` is the remainder. -/
theorem mmulMultipliesModP : Obligations.MmulMultipliesModP := fun rd rs1 rs2 s =>
  ⟨fun hp => (exec_mmul rd rs1 rs2 s).trans (fieldCommand_fieldDone hp rd _), exec_small rfl,
    encodedAs_fieldWord (neg := false) (by decide) rfl⟩

/-- Settles O6: `modInverse` meets its gcd contract, and the inverse it answers is the only one. -/
theorem minvWritesTheUniqueInverse : Obligations.MinvWritesTheUniqueInverse := by
  intro rd rs1 s
  refine ⟨fun hp hg => ?_, fun hp hg => ?_, exec_small rfl,
    encodedAs_fieldWord (rs2 := 0) (neg := false) (by decide) rfl⟩
  · obtain ⟨u, -, hu⟩ := modInverse_of_gcd (by omega) hg
    exact ⟨u, hu, fun w hw => inverse_unique hw.1 hu.1 hw.2 hu.2, exec_minv_of_isInverse hp hu⟩
  · have herr : modInverse (fieldOperand s rs1) (modulus s) = .error .notInvertible :=
      modInverse_of_gcd_ne (p := s.cp.toNat) (by omega) hg
    rw [exec_minv, herr, fieldCommand_error hp]
    rfl

/-- Settles O7: the squaring loop computes the power, whatever the exponent. -/
theorem mpowWritesThePower : Obligations.MpowWritesThePower := fun rd rs1 rs2 s =>
  ⟨fun hp => (exec_mpow rd rs1 rs2 s).trans (fieldCommand_fieldDone hp rd _), exec_small rfl,
    encodedAs_fieldWord (neg := false) (by decide) rfl⟩

/-- Settles O32: the commands' equations turn each law into one of the integers. -/
theorem fieldCommandLaws : Obligations.FieldCommandLaws := by
  intro rd x y s
  refine ⟨?_, ?_, fun hp => ?_, fun hy => ?_⟩
  · rw [exec_madd, exec_madd, Nat.add_comm]
  · rw [exec_mmul, exec_mmul, Nat.mul_comm]
  · rw [exec_msub, sub_self, normalize, Int.zero_emod, fieldCommand_fieldDone hp]
    rfl
  · have hnorm : normalize (signed false (fieldOperand s x)) (modulus s) = fieldOperand s x % modulus s :=
      normalize_natCast _ _
    rw [exec_mmul, exec_norm, hy, Nat.mul_one, hnorm]

/-- Settles O33: congruent sources have congruent sums, differences, products and powers. -/
theorem sourcesEnterModuloP : Obligations.SourcesEnterModuloP := by
  intro rd x y x' y' s hx hy
  replace hx : fieldOperand s x ≡ fieldOperand s x' [MOD modulus s] := hx
  replace hy : fieldOperand s y ≡ fieldOperand s y' [MOD modulus s] := hy
  refine ⟨?_, ?_, ?_, ?_⟩
  · rw [exec_madd, exec_madd, hx.add hy]
  · rw [exec_msub, exec_msub, normalize_congr ((Int.natCast_modEq_iff.2 hx).sub (Int.natCast_modEq_iff.2 hy))]
  · rw [exec_mmul, exec_mmul, hx.mul hy]
  · rw [exec_mpow, exec_mpow, hx.pow]

/-- The destination of a field command holds its value, which is canonical (rules R120, R259). -/
theorem fieldOperand_fieldDone_self (rd : FReg) {v : Nat} (hv : v < s.cp.toNat) :
    fieldOperand (fieldDone s rd v) rd = v := by
  have hreg : (fieldDone s rd v).fieldReg rd = BitVec.ofNat 1024 v := fieldReg_setField_self s rd _
  rw [fieldOperand, hreg, BitVec.toNat_ofNat, Nat.mod_eq_of_lt (hv.trans s.cp.isLt)]

/-- A field command leaves the other field registers (rules R27, R259). -/
theorem fieldOperand_fieldDone_ne (s : State) {rd x : FReg} (h : rd ≠ x) (v : Nat) :
    fieldOperand (fieldDone s rd v) x = fieldOperand s x :=
  congrArg BitVec.toNat (fieldReg_setField_ne s h _)

/-- The residue is the inverse of the inverse (rules R128, R135). -/
theorem isInverse_symm {p v u : Nat} (h : IsInverse p v u) : IsInverse p u (v % p) := by
  obtain ⟨hlt, hmul⟩ := h
  exact ⟨Nat.mod_lt v (Nat.zero_lt_of_lt hlt), by rw [Nat.mul_mod_mod, Nat.mul_comm, hmul]⟩

/-- Settles O34: after MINV the destination holds the inverse and the source is unchanged, and inverses are mutual. -/
theorem minvLaws : Obligations.MinvLaws := by
  intro rd x rd2 s hne hp hg
  obtain ⟨u, -, hlt, hmul⟩ := modInverse_of_gcd (by omega) hg
  have hrd : fieldOperand (fieldDone s rd u) rd = u := fieldOperand_fieldDone_self rd hlt
  have hx : fieldOperand (fieldDone s rd u) x = fieldOperand s x := fieldOperand_fieldDone_ne s hne u
  refine ⟨fieldDone s rd u, exec_minv_of_isInverse hp ⟨hlt, hmul⟩, exec_minv_of_isInverse hp ?_, ?_⟩
  · rw [hrd]
    exact isInverse_symm ⟨hlt, hmul⟩
  · have hone : u * fieldOperand s x % modulus (fieldDone s rd u) = 1 := by
      rw [Nat.mul_comm]
      exact hmul
    rw [exec_mmul, hrd, hx, hone, fieldCommand_fieldDone (s := fieldDone s rd u) hp]

end Sys2Proof.Machine
end

section
/-! SUPPORT. The point adder computes the relation of rule R161 and fails exactly where the slope's divisor has no
inverse; PADD as a command. -/

namespace Sys2Proof

open Sys2Proof.Spec

/-- A point-register index fits its four bits (rule R92). -/
theorem toNat_ofNat_preg (i : PReg) : (BitVec.ofNat 4 i).toNat = i := by revert i; decide

/-- The one word of a command on point registers without modifiers (rules R91, R92). -/
theorem encodedAs_pointWord {i : Instr} {opcode : Nat} {rd rs1 rs2 : PReg} (hop : opcode < 2 ^ 8)
    (h : encodeFields i = plainFields opcode rd rs1 rs2) : EncodedAs i (commandWord opcode rd rs1 rs2 0 0) := by
  have hw := encodedAs_commandWord i
  simp only [h, plainFields, toNat_ofNat_preg, BitVec.toNat_ofNat opcode, Nat.mod_eq_of_lt hop] at hw
  exact hw

end Sys2Proof

namespace Sys2Proof.Machine

open Sys2Proof.Spec

/-- `Except.map` answers the image of its argument's value. -/
theorem map_eq_ok {ε α β : Type} {x : Except ε α} {f : α → β} {b : β} :
    x.map f = .ok b ↔ ∃ a, x = .ok a ∧ f a = b := by
  cases x <;> simp [Except.map]

/-- The model's third point is the relation's (rule R166). -/
theorem chordPoint_eq_iff {p : Nat} (hp : 0 < p) {v : Int} {ax ay bx : Nat} {r : Point} :
    chordPoint p (normalize v p) ax ay bx = r ↔ ThirdPoint p (v % p) ax ay bx r := by
  simp only [chordPoint, ThirdPoint, ← normalize_cast v hp]
  constructor
  · rintro rfl
    exact ⟨_, _, rfl, normalize_cast _ hp, normalize_cast _ hp⟩
  · rintro ⟨rx, ry, rfl, hx, hy⟩
    obtain rfl : rx = _ := Int.natCast_inj.1 (hx.trans (normalize_cast _ hp).symm)
    obtain rfl : ry = _ := Int.natCast_inj.1 (hy.trans (normalize_cast _ hp).symm)
    rfl

section Adder

variable {p a ax ay bx by' : Nat} {r : Point}

/-- The model's test for a vertical chord is the relation's (rule R163). -/
theorem normalize_eq_zero_iff (hp : 0 < p) {v : Int} : normalize v p = 0 ↔ v % (p : Int) = 0 := by
  rw [← Int.natCast_inj, normalize_cast v hp, Nat.cast_zero]

/-- Both slopes of rule R161 are a numerator times the inverse of a divisor, and the third point is drawn with it. -/
theorem slope_chordPoint_eq_ok (hp : 1 < p) {d : Nat} {num : Int} :
    ((modInverse d p).map fun u : Nat => normalize (num * u) p).map (fun m => chordPoint p m ax ay bx) = .ok r ↔
      ∃ u, IsInverse p d u ∧ ThirdPoint p ((num * u) % p) ax ay bx r := by
  have hpos : 0 < p := by omega
  simp only [map_eq_ok, modInverse_eq_ok hp, IsInverse]
  constructor
  · rintro ⟨m, ⟨u, hu, rfl⟩, h⟩
    exact ⟨u, hu, (chordPoint_eq_iff hpos).1 h⟩
  · rintro ⟨u, hu, h⟩
    exact ⟨_, ⟨u, hu, rfl⟩, (chordPoint_eq_iff hpos).2 h⟩

/-- The case analysis of rule R161 on two affine points: each branch of the model is one disjunct of the relation. -/
theorem addAffine_eq_ok (hp : 1 < p) :
    addAffine p a ax ay bx by' = .ok r ↔ AddsTo p a (.affine ax ay) (.affine bx by') r := by
  have hdx := normalize_eq_zero_iff (p := p) (v := (bx : Int) - ax) (by omega)
  simp only [addAffine, AddsTo, hdx]
  by_cases hv : ((bx : Int) - ax) % p = 0 ∧ ay ≠ by'
  · obtain ⟨h0, hne⟩ := hv
    simp [h0, hne, eq_comm]
  · by_cases he : ax = bx ∧ ay = by'
    · rw [if_neg hv, if_pos he]
      refine (slope_chordPoint_eq_ok hp).trans ⟨fun h => .inr (.inl ⟨he.1, he.2, h⟩), ?_⟩
      rintro (⟨h0, hne, -⟩ | ⟨-, -, h⟩ | ⟨-, hn, -⟩)
      · exact absurd ⟨h0, hne⟩ hv
      · exact h
      · exact absurd he hn
    · rw [if_neg hv, if_neg he]
      refine (slope_chordPoint_eq_ok hp).trans ⟨fun h => .inr (.inr ⟨hv, he, h⟩), ?_⟩
      rintro (⟨h0, hne, -⟩ | ⟨hx, hy, -⟩ | ⟨-, -, h⟩)
      · exact absurd ⟨h0, hne⟩ hv
      · exact absurd ⟨hx, hy⟩ he
      · exact h

/-- `add` answers `r` exactly when the relation of rule R161 gives it. -/
theorem pointAdd_eq_ok (hp : 1 < p) {A B : Point} : pointAdd p a A B = .ok r ↔ AddsTo p a A B r := by
  cases A with
  | identity => simp only [pointAdd, AddsTo, Except.ok.injEq, eq_comm]
  | affine ax ay =>
    cases B with
    | identity => simp only [pointAdd, AddsTo, Except.ok.injEq, eq_comm]
    | affine bx by' => exact addAffine_eq_ok hp

/-- A slope fails exactly when its divisor shares a factor with p (rules R128, R164, R165). -/
theorem slope_chordPoint_eq_error (hp : 1 < p) {d : Nat} {num : Int} {e : ErrKind} :
    ((modInverse d p).map fun u : Nat => normalize (num * u) p).map (fun m => chordPoint p m ax ay bx) = .error e ↔
      e = .notInvertible ∧ Nat.gcd (d % p) p ≠ 1 := by
  rw [← modInverse_eq_error hp]
  exact ⟨fun h => map_eq_error (map_eq_error h), fun h => by rw [h]; rfl⟩

/-- `add` of affine points fails in the branches with a slope only (rules R161, R164, R165). -/
theorem addAffine_eq_error (hp : 1 < p) {e : ErrKind} :
    addAffine p a ax ay bx by' = .error e ↔ e = .notInvertible ∧ AddFails p (.affine ax ay) (.affine bx by') := by
  have hpos : 0 < p := by omega
  have hdx := normalize_eq_zero_iff (v := (bx : Int) - ax) hpos
  have hmod : normalize ((bx : Int) - ax) p % p = (((bx : Int) - ax) % p).toNat :=
    Nat.mod_eq_of_lt (normalize_lt _ hpos)
  simp only [addAffine, AddFails, hdx]
  by_cases hv : ((bx : Int) - ax) % p = 0 ∧ ay ≠ by'
  · simp [hv]
  · rw [if_neg hv]
    by_cases he : ax = bx ∧ ay = by'
    · rw [if_pos he]
      exact (slope_chordPoint_eq_error hp).trans (by simp [he])
    · rw [if_neg he]
      refine (slope_chordPoint_eq_error hp).trans ?_
      rw [hmod]
      constructor
      · exact fun ⟨hk, hg⟩ => ⟨hk, .inr ⟨hv, he, hg⟩⟩
      · rintro ⟨hk, ⟨hx, hy, -⟩ | ⟨-, -, hg⟩⟩
        · exact absurd ⟨hx, hy⟩ he
        · exact ⟨hk, hg⟩

/-- `add` raises an error exactly when the relation of rule R161 fails, and it is NotInvertible. -/
theorem pointAdd_eq_error (hp : 1 < p) {A B : Point} {e : ErrKind} :
    pointAdd p a A B = .error e ↔ e = .notInvertible ∧ AddFails p A B := by
  cases A with
  | identity => simp [pointAdd, AddFails]
  | affine ax ay =>
    cases B with
    | identity => simp [pointAdd, AddFails]
    | affine bx by' => exact addAffine_eq_error hp

end Adder

section Command

variable {s : State} {rd : PReg}

/-- The model's lock check is condition 5 of rule R97. -/
theorem lockedDest_iff_locked : lockedDest s rd = true ↔ Locked s rd := by
  simp [lockedDest, Locked]

theorem lockedDest_eq_false (hl : ¬ Locked s rd) : lockedDest s rd = false :=
  Bool.eq_false_iff.2 (mt lockedDest_iff_locked.1 hl)

/-- A Point's register form is the statements' (rules R10, R26). -/
theorem toReg_eq_registerOf (r : Point) : r.toReg = registerOf r := by cases r <;> rfl

/-- A point command's value is the destination of its end state (rule R259). -/
theorem pointCommand_pointDone (hl : ¬ Locked s rd) (hp : 3 < modulus s) (r : Point) :
    pointCommand s rd (.ok r) = .next (pointDone s rd r) := by
  rw [pointCommand_ok (lockedDest_eq_false hl) hp, toReg_eq_registerOf]
  rfl

/-- The own rule of a point command matters only above the small moduli (rules R101, R256). -/
theorem pointCommand_congr {own own' : Except ErrKind Point} (h : 3 < modulus s → own = own') :
    pointCommand s rd own = pointCommand s rd own' := by
  by_cases hp : 3 < modulus s
  · rw [h hp]
  · cases hl : lockedDest s rd with
    | true => rw [pointCommand_locked hl, pointCommand_locked hl]
    | false => rw [pointCommand_small hl (Nat.not_lt.1 hp), pointCommand_small hl (Nat.not_lt.1 hp)]

/-- PADD as an equation (rule R161). -/
theorem exec_padd (rd rs1 rs2 : PReg) (s : State) :
    exec (.padd rd rs1 rs2) s =
      pointCommand s rd (pointAdd (modulus s) (coeffA s) (pointOperand s rs1) (pointOperand s rs2)) := rfl

variable {rs1 rs2 : PReg}

/-- PADD writes the point that the case analysis gives (rule R161). -/
theorem exec_padd_of_addsTo (hl : ¬ Locked s rd) (hp : 3 < s.cp.toNat) {r : Point}
    (h : AddsTo s.cp.toNat s.ca.toNat (pointOperand s rs1) (pointOperand s rs2) r) :
    exec (.padd rd rs1 rs2) s = .next (pointDone s rd r) := by
  have hadd : pointAdd (modulus s) (coeffA s) (pointOperand s rs1) (pointOperand s rs2) = .ok r :=
    (pointAdd_eq_ok (p := s.cp.toNat) (by omega)).2 h
  rw [exec_padd, hadd, pointCommand_pointDone hl hp]

/-- PADD completes with code 3 when the case analysis fails (rule R161). -/
theorem exec_padd_of_addFails (hl : ¬ Locked s rd) (hp : 3 < s.cp.toNat)
    (h : AddFails s.cp.toNat (pointOperand s rs1) (pointOperand s rs2)) :
    exec (.padd rd rs1 rs2) s = .next (errorDone s 3) := by
  have hadd : pointAdd (modulus s) (coeffA s) (pointOperand s rs1) (pointOperand s rs2) = .error .notInvertible :=
    (pointAdd_eq_error (p := s.cp.toNat) (by omega)).2 ⟨rfl, h⟩
  rw [exec_padd, hadd, pointCommand_error (lockedDest_eq_false hl) hp]
  rfl

end Command

/-- Where the relation of rule R161 does not fail it has exactly one result: the adder's. -/
theorem exists_unique_addsTo {p a : Nat} (hp : 1 < p) {A B : Point} (h : ¬ AddFails p A B) :
    ∃ r, AddsTo p a A B r ∧ ∀ r', AddsTo p a A B r' → r' = r := by
  cases hadd : pointAdd p a A B with
  | error e => exact absurd ((pointAdd_eq_error hp).1 hadd).2 h
  | ok r =>
    refine ⟨r, (pointAdd_eq_ok hp).1 hadd, fun r' hr' => ?_⟩
    exact Except.ok.inj (((pointAdd_eq_ok hp).2 hr').symm.trans hadd)

/-- Settles O8: the adder answers exactly what the relation gives, and fails exactly where it fails. -/
theorem paddFollowsTheCaseAnalysis : Obligations.PaddFollowsTheCaseAnalysis := by
  intro rd rs1 rs2 s
  refine ⟨fun hl hp hf => ?_, exec_padd_of_addFails,
    fun hl hp => pointCommand_small (lockedDest_eq_false hl) hp _,
    fun hl => pointCommand_locked (lockedDest_iff_locked.2 hl) _, encodedAs_pointWord (by decide) rfl⟩
  obtain ⟨r, hr, hunique⟩ := exists_unique_addsTo (a := s.ca.toNat) (by omega) hf
  exact ⟨r, hr, hunique, exec_padd_of_addsTo hl hp hr⟩

/-- The identity is neutral on the right; on the left it is by definition (rule R162). -/
theorem addsTo_identity_right (p a : Nat) (A : Point) : AddsTo p a A .identity A := by cases A <;> rfl

/-- Settles O36: beside the identity the case analysis gives the other operand as stored. -/
theorem paddIdentityLaw : Obligations.PaddIdentityLaw := by
  intro rd rs1 rs2 s hl hp
  refine ⟨fun h => exec_padd_of_addsTo hl hp ?_, fun h => exec_padd_of_addsTo hl hp ?_⟩ <;> rw [h]
  · rfl
  · exact addsTo_identity_right _ _ _

end Sys2Proof.Machine
end

section
/-! SUPPORT. The relation of rule R161 in the ring Z/p, where stored numbers are residues (rules R166, R170). -/

namespace Sys2Proof.Machine

open Sys2Proof.Spec

variable {p : Nat}

/-- The affine Point with the canonical coordinates of two residues (rule R22). -/
def residuePoint (x y : ZMod p) : Point := .affine x.val y.val

/-- The third point of the chord or tangent of slope `m` through `(ax, ay)`, in Z/p (rule R166). -/
def residueThirdPoint (m ax ay bx : ZMod p) : Point :=
  residuePoint (m ^ 2 - ax - bx) (m * (ax - (m ^ 2 - ax - bx)) - ay)

/-- The third point depends on residues only (rule R166). -/
theorem thirdPoint_iff (hp : 0 < p) {m ax ay bx : Int} {r : Point} :
    ThirdPoint p m ax ay bx r ↔ r = residueThirdPoint (m : ZMod p) ax ay bx := by
  have : NeZero p := ⟨hp.ne'⟩
  have hres : ∀ (n : Nat) (v : Int), (n : Int) = v % p ↔ n = (v : ZMod p).val := fun n v => by
    rw [← ZMod.val_intCast, Int.natCast_inj]
  simp only [ThirdPoint, hres, residueThirdPoint, residuePoint]
  constructor
  · rintro ⟨rx, ry, rfl, rfl, rfl⟩
    push_cast [ZMod.natCast_zmod_val]
    rfl
  · rintro rfl
    exact ⟨_, _, rfl, by push_cast; rfl, by push_cast [ZMod.natCast_zmod_val]; rfl⟩

/-- The contract of the inverse in Z/p (rule R128). -/
theorem isInverse_iff (hp : 1 < p) {v u : Nat} : IsInverse p v u ↔ u < p ∧ (v * u : ZMod p) = 1 := by
  have h := ZMod.natCast_eq_natCast_iff' (v * u) 1 p
  rw [Nat.mod_eq_of_lt hp, Nat.cast_mul, Nat.cast_one] at h
  rw [IsInverse, h]

/-- The point of a slope, a numerator times an inverse of the contract, in Z/p (rules R128, R164 to R166). -/
theorem exists_slope_iff (hp : 1 < p) {v : Nat} {num ax ay bx : Int} {r : Point} :
    (∃ u : Nat, IsInverse p v u ∧ ThirdPoint p (num * u % p) ax ay bx r) ↔
      ∃ u : ZMod p, v * u = 1 ∧ r = residueThirdPoint (num * u : ZMod p) ax ay bx := by
  have : NeZero p := ⟨by omega⟩
  simp only [isInverse_iff hp, thirdPoint_iff (by omega : 0 < p)]
  push_cast
  constructor
  · rintro ⟨u, ⟨-, hu⟩, h⟩
    exact ⟨u, hu, h⟩
  · rintro ⟨u, hu, h⟩
    refine ⟨u.val, ⟨u.val_lt, ?_⟩, ?_⟩ <;> rwa [ZMod.natCast_zmod_val]

/-- The divisor of the chord in Z/p (rule R165). -/
theorem natCast_toNat_emod (hp : 0 < p) (v : Int) : (((v % p).toNat : Nat) : ZMod p) = v := by
  have h : (((v % p).toNat : Int) : ZMod p) = v := by
    rw [Int.toNat_of_nonneg (Int.emod_nonneg v (by omega)), ZMod.intCast_mod]
  exact_mod_cast h

/-- `normalize(B.x - A.x) = 0` is equality in Z/p (rules R161, R168). -/
theorem sub_emod_eq_zero_iff {ax bx : Nat} : ((bx : Int) - ax) % p = 0 ↔ (ax : ZMod p) = bx := by
  rw [← Int.dvd_iff_emod_eq_zero, ← ZMod.intCast_zmod_eq_zero_iff_dvd, Int.cast_sub, Int.cast_natCast, Int.cast_natCast,
    sub_eq_zero, eq_comm]

/-- The case analysis of rule R161 on affine points in Z/p; the chord's divisor, a unit, is not 0. -/
theorem addsTo_affine_iff (hp : 1 < p) {a ax ay bx by' : Nat} {r : Point} :
    AddsTo p a (.affine ax ay) (.affine bx by') r ↔
      ((ax : ZMod p) = bx ∧ ay ≠ by' ∧ r = .identity) ∨
      (ax = bx ∧ ay = by' ∧ ∃ u : ZMod p, 2 * ay * u = 1 ∧
        r = residueThirdPoint ((3 * ax ^ 2 + a : ZMod p) * u) ax ay bx) ∨
      ∃ u : ZMod p, (bx - ax) * u = 1 ∧ r = residueThirdPoint ((by' - ay : ZMod p) * u) ax ay bx := by
  have : Fact (1 < p) := ⟨hp⟩
  have hne : ∀ {T : ZMod p → Prop}, (∃ u : ZMod p, (bx - ax) * u = 1 ∧ T u) → (ax : ZMod p) ≠ bx := by
    rintro T ⟨u, hu, -⟩ h
    simp [h] at hu
  simp only [AddsTo, exists_slope_iff hp, sub_emod_eq_zero_iff, natCast_toNat_emod (by omega : 0 < p)]
  push_cast
  refine or_congr_right (or_congr_right ⟨fun h => h.2.2, fun h => ⟨fun hv => hne h hv.1, fun he => hne h ?_, h⟩⟩)
  rw [he.1]

/-- The chord may be drawn from either end (rule R170). -/
theorem residueThirdPoint_symm {m ax ay bx by' : ZMod p} (h : m * (bx - ax) = by' - ay) :
    residueThirdPoint m ax ay bx = residueThirdPoint m bx by' ax := by
  have hx : m ^ 2 - bx - ax = m ^ 2 - ax - bx := by ring
  have hy : m * (ax - (m ^ 2 - ax - bx)) - ay = m * (bx - (m ^ 2 - ax - bx)) - by' := by linear_combination -h
  rw [residueThirdPoint, residueThirdPoint, hx, hy]

/-- The case analysis of rule R161 is symmetric in its operands (rule R170). -/
theorem addsTo_symm (hp : 1 < p) {a : Nat} {A B r : Point} (h : AddsTo p a A B r) : AddsTo p a B A r := by
  cases A with
  | identity => cases h; exact addsTo_identity_right p a B
  | affine ax ay =>
    cases B with
    | identity => exact h
    | affine bx by' =>
      rw [addsTo_affine_iff hp] at h ⊢
      obtain ⟨hx, hy, hr⟩ | ⟨rfl, rfl, hr⟩ | ⟨u, hu, rfl⟩ := h
      · exact .inl ⟨hx.symm, hy.symm, hr⟩
      · exact .inr (.inl ⟨rfl, rfl, hr⟩)
      · have hslope : ((ay : ZMod p) - by') * -u = (by' - ay) * u := by ring
        refine .inr (.inr ⟨-u, by linear_combination hu, ?_⟩)
        rw [hslope]
        exact residueThirdPoint_symm (by linear_combination ((by' : ZMod p) - ay) * hu)

/-- `add` gives the same answer with its operands exchanged: the same point, or its only error (rule R170). -/
theorem pointAdd_comm (hp : 1 < p) (a : Nat) (A B : Point) : pointAdd p a A B = pointAdd p a B A := by
  cases h : pointAdd p a A B with
  | ok r => exact ((pointAdd_eq_ok hp).2 (addsTo_symm hp ((pointAdd_eq_ok hp).1 h))).symm
  | error e =>
    cases h' : pointAdd p a B A with
    | ok r => exact nomatch h.symm.trans ((pointAdd_eq_ok hp).2 (addsTo_symm hp ((pointAdd_eq_ok hp).1 h')))
    | error e' => rw [pointAdd_error hp h, pointAdd_error hp h']

/-- Settles O35: the common checks do not look at the sources, and `add` is symmetric. -/
theorem paddIsCommutative : Obligations.PaddIsCommutative := by
  intro rd rs1 rs2 s
  rw [exec_padd, exec_padd]
  exact pointCommand_congr fun hp => pointAdd_comm (by omega) _ _ _

end Sys2Proof.Machine
end

section
/-! SUPPORT. For prime p > 3 the relation of rule R161 is the addition of Mathlib's elliptic curve group (rule R164). -/

namespace Sys2Proof.Machine

open Sys2Proof.Spec WeierstrassCurve.Affine

section GroupLaw

variable {p : Nat} [Fact p.Prime] {a b : ZMod p}

/-- The curve y^2 = x^3 + a*x + b over Z/p (rule R203). -/
abbrev shortCurve (a b : ZMod p) : WeierstrassCurve.Affine (ZMod p) := (WeierstrassCurve.mk 0 0 0 a b).toAffine

/-- The Point of a point of the curve, with canonical coordinates (rules R22, R26). -/
def curvePoint : (shortCurve a b).Point → Machine.Point
  | .zero => .identity
  | .some x y _ => residuePoint x y

/-- Negation on the curve (rule R163). -/
theorem shortCurve_negY (x y : ZMod p) : (shortCurve a b).negY x y = -y := by simp [negY]

/-- The addition formula of the curve is the third point of the slope (rule R166). -/
theorem residuePoint_add (m x₁ y₁ x₂ : ZMod p) :
    residuePoint ((shortCurve a b).addX x₁ x₂ m) ((shortCurve a b).addY x₁ x₂ y₁ m) = residueThirdPoint m x₁ y₁ x₂ := by
  have hx : (shortCurve a b).addX x₁ x₂ m = m ^ 2 - x₁ - x₂ := by simp [addX]
  have hy : (shortCurve a b).addY x₁ x₂ y₁ m = m * (x₁ - (m ^ 2 - x₁ - x₂)) - y₁ := by
    rw [addY, shortCurve_negY, negAddY, hx]
    ring
  rw [hx, hy, residueThirdPoint]

/-- The slope of the tangent of the curve (rule R164). -/
theorem shortCurve_slope_self {x y : ZMod p} (hy : y ≠ -y) :
    (shortCurve a b).slope x x y y = (3 * x ^ 2 + a) * (2 * y)⁻¹ := by
  rw [← shortCurve_negY (a := a) (b := b) x] at hy
  rw [slope_of_Y_ne rfl hy, shortCurve_negY, div_eq_mul_inv]
  simp [two_mul]

/-- The slope of the chord (rule R165). -/
theorem shortCurve_slope_of_ne {x₁ x₂ y₁ y₂ : ZMod p} (hx : x₁ ≠ x₂) :
    (shortCurve a b).slope x₁ x₂ y₁ y₂ = (y₂ - y₁) * (x₂ - x₁)⁻¹ := by
  rw [slope_of_X_ne hx, ← neg_sub y₂, ← neg_sub x₂, neg_div_neg_eq, div_eq_mul_inv]

/-- The case analysis of rule R161 on affine points with canonical coordinates. -/
theorem addsTo_residuePoint_iff {a : Nat} {x₁ y₁ x₂ y₂ : ZMod p} {r : Machine.Point} :
    AddsTo p a (residuePoint x₁ y₁) (residuePoint x₂ y₂) r ↔
      (x₁ = x₂ ∧ y₁ ≠ y₂ ∧ r = .identity) ∨
      (x₁ = x₂ ∧ y₁ = y₂ ∧ ∃ u, 2 * y₁ * u = 1 ∧ r = residueThirdPoint ((3 * x₁ ^ 2 + a : ZMod p) * u) x₁ y₁ x₂) ∨
      ∃ u, (x₂ - x₁) * u = 1 ∧ r = residueThirdPoint ((y₂ - y₁) * u) x₁ y₁ x₂ := by
  have hinj : ∀ {u v : ZMod p}, u.val = v.val ↔ u = v := (ZMod.val_injective p).eq_iff
  simp only [residuePoint, addsTo_affine_iff (Fact.out : p.Prime).one_lt, ZMod.natCast_zmod_val, hinj, ne_eq]

end GroupLaw

section Refinement

variable {p : Nat} [Fact p.Prime] {a b : Nat}

section Affine

variable {x₁ y₁ x₂ y₂ : ZMod p} (h₁ : (shortCurve (a : ZMod p) b).Nonsingular x₁ y₁)
  (h₂ : (shortCurve (a : ZMod p) b).Nonsingular x₂ y₂)

/-- A point that is not its own negative is doubled by its tangent (rule R164). -/
theorem addsTo_double (hy : y₁ ≠ -y₁) :
    AddsTo p a (residuePoint x₁ y₁) (residuePoint x₁ y₁) (curvePoint (Point.some _ _ h₁ + Point.some _ _ h₁)) := by
  have hne : y₁ ≠ (shortCurve (a : ZMod p) b).negY x₁ y₁ := by rwa [shortCurve_negY]
  rw [addsTo_residuePoint_iff, Point.add_self_of_Y_ne hne]
  refine .inr (.inl ⟨rfl, rfl, (2 * y₁)⁻¹, mul_inv_cancel₀ fun h0 => hy (by linear_combination h0), ?_⟩)
  rw [← shortCurve_slope_self hy]
  exact residuePoint_add ..

/-- Two points of the curve with one x and different y are negatives of each other (rule R163). -/
theorem addsTo_vertical (hx : x₁ = x₂) (hy : y₁ ≠ y₂) :
    AddsTo p a (residuePoint x₁ y₁) (residuePoint x₂ y₂) (curvePoint (Point.some _ _ h₁ + Point.some _ _ h₂)) := by
  rw [addsTo_residuePoint_iff, Point.add_of_Y_eq hx ((Y_eq_of_X_eq h₁.1 h₂.1 hx).resolve_left hy)]
  exact .inl ⟨hx, hy, rfl⟩

/-- Two points with different x are added by their chord (rule R165). -/
theorem addsTo_chord (hx : x₁ ≠ x₂) :
    AddsTo p a (residuePoint x₁ y₁) (residuePoint x₂ y₂) (curvePoint (Point.some _ _ h₁ + Point.some _ _ h₂)) := by
  rw [addsTo_residuePoint_iff, Point.add_of_X_ne hx]
  refine .inr (.inr ⟨(x₂ - x₁)⁻¹, mul_inv_cancel₀ (sub_ne_zero.2 hx.symm), ?_⟩)
  rw [← shortCurve_slope_of_ne hx]
  exact residuePoint_add ..

end Affine

/-- But for the doubling of a point of order 2, the case analysis gives the group's sum (rules R161, R164). -/
theorem addsTo_curvePoint (P Q : (shortCurve (a : ZMod p) b).Point) (h : ¬ (P = Q ∧ P ≠ 0 ∧ P + Q = 0)) :
    AddsTo p a (curvePoint P) (curvePoint Q) (curvePoint (P + Q)) := by
  cases P with
  | zero => rw [← Point.zero_def, zero_add]; rfl
  | some x₁ y₁ h₁ =>
    cases Q with
    | zero => rw [← Point.zero_def, add_zero]; exact addsTo_identity_right p a _
    | some x₂ y₂ h₂ =>
      by_cases hx : x₁ = x₂
      · by_cases hy : y₁ = y₂
        · subst hx hy
          refine addsTo_double h₁ fun hneg => h ⟨rfl, Point.some_ne_zero h₁, Point.add_self_of_Y_eq ?_⟩
          rwa [shortCurve_negY]
        · exact addsTo_vertical h₁ h₂ hx hy
      · exact addsTo_chord h₁ h₂ hx

/-- The exception of rule R164: a point of order 2 has y = 0, so the divisor of its tangent is 0. -/
theorem addFails_curvePoint (hp : 3 < p) {P : (shortCurve (a : ZMod p) b).Point} (h0 : P ≠ 0) (h2 : P + P = 0) :
    AddFails p (curvePoint P) (curvePoint P) := by
  have hprime : p.Prime := Fact.out
  cases P with
  | zero => exact absurd rfl h0
  | some x y hxy =>
    have hneg : y = -y := by
      by_contra hne
      rw [← shortCurve_negY (a := (a : ZMod p)) (b := b) x] at hne
      rw [Point.add_self_of_Y_ne hne] at h2
      exact Point.some_ne_zero _ h2
    have hy : y = 0 := by
      by_contra hne
      exact ZMod.ne_neg_self (hprime.odd_of_ne_two (by omega)) hne hneg
    refine .inl ⟨rfl, rfl, ?_⟩
    rw [hy, ZMod.val_zero, Nat.mul_zero, Nat.zero_mod, Nat.gcd_zero_left]
    exact hprime.ne_one

end Refinement

/-- Settles O38: the relation gives the group's sum, and fails at the doubling of a point of order 2. -/
theorem paddIsTheCurvesGroupLaw : Obligations.PaddIsTheCurvesGroupLaw := by
  intro p a b _ rd rs1 rs2 s P Q hl hp hcp hca hP hQ
  replace hP : pointOperand s rs1 = curvePoint P := hP.trans (by cases P <;> rfl)
  replace hQ : pointOperand s rs2 = curvePoint Q := hQ.trans (by cases Q <;> rfl)
  subst hcp hca
  refine ⟨fun h => ?_, ?_⟩
  · have hsum := addsTo_curvePoint P Q h
    rw [← hP, ← hQ] at hsum
    refine (exec_padd_of_addsTo hl hp hsum).trans ?_
    cases P + Q <;> rfl
  · rintro rfl h0 h2
    have hfail := addFails_curvePoint hp h0 h2
    rw [← hP] at hfail
    exact exec_padd_of_addFails hl hp (by rwa [hQ, ← hP])

end Sys2Proof.Machine
end

section
/-! SUPPORT. The loop of the scalar multiplier computes the double-and-add relation, bit by bit from the leading one
(rules R181, R184); SMUL as a command. -/

namespace Sys2Proof

open Sys2Proof.Spec

/-- The one word of SMUL (rules R91, R92, R96). -/
theorem encodedAs_smul (neg : Bool) (rd rs1 : PReg) (rs2 : FReg) :
    EncodedAs (.smul neg rd rs1 rs2) (commandWord 0x11 rd rs1 rs2 0 neg.toNat) := by
  have hw := encodedAs_commandWord (.smul neg rd rs1 rs2)
  simp only [encodeFields, plainFields, toNat_ofNat_preg, toNat_ofNat_freg] at hw
  exact hw

end Sys2Proof

namespace Sys2Proof.Machine

open Sys2Proof.Spec

section Relation

variable {p a : Nat} {P r : Point} {k : Nat}

/-- Double-and-add starts at 1 (rule R181). -/
theorem pos_of_multipleOf (h : MultipleOf p a P k r) : 0 < k := by
  induction h with
  | one => exact Nat.one_pos
  | double _ _ ih => omega
  | doubleAdd => omega

/-- The multiple for 1 is P itself (rule R181). -/
theorem multipleOf_one_iff : MultipleOf p a P 1 r ↔ r = P := by
  constructor
  · intro h
    generalize hk : 1 = k at h
    cases h with
    | one => rfl
    | double => omega
    | doubleAdd hq =>
      have := pos_of_multipleOf hq
      omega
  · rintro rfl
    exact .one

/-- A bit 0 below the leading one doubles (rule R184). -/
theorem multipleOf_double_iff :
    MultipleOf p a P (2 * k) r ↔ ∃ q, MultipleOf p a P k q ∧ AddsTo p a q q r := by
  constructor
  · intro h
    generalize hm : 2 * k = m at h
    cases h with
    | one => omega
    | @double k' q _ hq hd =>
      obtain rfl : k = k' := by omega
      exact ⟨q, hq, hd⟩
    | doubleAdd => omega
  · rintro ⟨q, hq, hd⟩
    exact .double hq hd

/-- A bit 1 below the leading one doubles and adds P (rule R184). -/
theorem multipleOf_doubleAdd_iff (hk : 0 < k) :
    MultipleOf p a P (2 * k + 1) r ↔
      ∃ q, MultipleOf p a P k q ∧ ∃ d, AddsTo p a q q d ∧ AddsTo p a d P r := by
  constructor
  · intro h
    generalize hm : 2 * k + 1 = m at h
    cases h with
    | one => omega
    | double => omega
    | @doubleAdd k' q d _ hq hd hr =>
      obtain rfl : k = k' := by omega
      exact ⟨q, hq, d, hd, hr⟩
  · rintro ⟨q, hq, d, hd, hr⟩
    exact .doubleAdd hq hd hr

/-- Every multiple past P begins with the double of P (rules R181, R187). -/
theorem exists_double_of_multipleOf (h : MultipleOf p a P k r) : k = 1 ∨ ∃ d, AddsTo p a P P d := by
  have hfirst : ∀ {k q d}, MultipleOf p a P k q → AddsTo p a q q d → (k = 1 ∨ ∃ d, AddsTo p a P P d) →
      ∃ d, AddsTo p a P P d := by
    rintro k q d hq hd (rfl | h)
    · obtain rfl := multipleOf_one_iff.1 hq
      exact ⟨d, hd⟩
    · exact h
  induction h with
  | one => exact .inl rfl
  | double hq hd ih => exact .inr (hfirst hq hd ih)
  | doubleAdd hq hd _ ih => exact .inr (hfirst hq hd ih)

/-- The identity's multiples are the identity (rule R187). -/
theorem multipleOf_identity (p a : Nat) (hk : k ≠ 0) : MultipleOf p a .identity k .identity := by
  induction k using Nat.strongRecOn with
  | ind k ih =>
    obtain rfl | h1 := eq_or_ne k 1
    · exact .one
    · have hhalf : MultipleOf p a .identity (k / 2) .identity := ih (k / 2) (by omega) (by omega)
      obtain hk2 | hk2 : k = 2 * (k / 2) ∨ k = 2 * (k / 2) + 1 := by omega
      · rw [hk2]
        exact .double hhalf rfl
      · rw [hk2]
        exact .doubleAdd hhalf rfl rfl

end Relation

section Loop

variable {p a : Nat} {P acc r : Point} {k : Nat}

/-- One turn of the loop as the relation's step (rule R184). -/
theorem smulTurn_eq_ok (hp : 1 < p) {bit : Bool} :
    smulTurn p a P bit acc = .ok r ↔
      ∃ d, AddsTo p a acc acc d ∧ (if bit then AddsTo p a d P r else d = r) := by
  simp only [smulTurn, ← pointAdd_eq_ok hp]
  cases pointAdd p a acc acc with
  | error e => simp
  | ok d => cases bit <;> simp

/-- A turn of the loop takes the multiple for some leading bits of k to the multiple for one bit more
(rules R183, R184). -/
theorem multipleOf_leadingBits_iff (hp : 1 < p) {i : Nat} (hi : 0 < k / 2 ^ (i + 1)) :
    MultipleOf p a P (k / 2 ^ i) r ↔
      ∃ q, MultipleOf p a P (k / 2 ^ (i + 1)) q ∧ smulTurn p a P (k.testBit i) q = .ok r := by
  rw [div_two_pow_succ k i]
  simp only [smulTurn_eq_ok hp]
  cases k.testBit i with
  | false => simpa using multipleOf_double_iff
  | true => simpa using multipleOf_doubleAdd_iff hi

theorem smulLoop_succ_eq_ok {i : Nat} :
    smulLoop p a P k (i + 1) acc = .ok r ↔
      ∃ q, smulTurn p a P (k.testBit i) acc = .ok q ∧ smulLoop p a P k i q = .ok r := by
  rw [smulLoop]
  cases smulTurn p a P (k.testBit i) acc <;> simp

/-- The loop's invariant (rule R184): ACC is the multiple for the bits of k that are consumed. -/
theorem multipleOf_iff_smulLoop (hp : 1 < p) :
    ∀ {i : Nat}, 0 < k / 2 ^ i → (MultipleOf p a P k r ↔
      ∃ q, MultipleOf p a P (k / 2 ^ i) q ∧ smulLoop p a P k i q = .ok r)
  | 0, _ => by simp [smulLoop]
  | i + 1, hi => by
    have hpos : 0 < k / 2 ^ i := hi.trans_le (Nat.div_le_div_left (by gcongr <;> omega) (by positivity))
    simp only [multipleOf_iff_smulLoop hp hpos, multipleOf_leadingBits_iff hp hi, smulLoop_succ_eq_ok]
    constructor
    · rintro ⟨q', ⟨q, hq, ht⟩, hl⟩
      exact ⟨q, hq, q', ht, hl⟩
    · rintro ⟨q, hq, q', ht, hl⟩
      exact ⟨q', ⟨q, hq, ht⟩, hl⟩

/-- The leading bit alone is 1 (rules R10, R183). -/
theorem div_two_pow_bitlen (hk : k ≠ 0) : k / 2 ^ (bitlen k - 1) = 1 := by
  have hlt := lt_two_pow_bitlen k
  rw [← Nat.sub_one_add_one (bitlen_pos k).ne', pow_succ, Nat.mul_comm] at hlt
  exact Nat.div_eq_of_lt_le (by simpa using two_pow_bitlen_le hk) hlt

/-- A positive scalar goes through the loop from P (rule R181). -/
theorem scalarMultiply_natCast (hk : k ≠ 0) :
    scalarMultiply p a P k = smulLoop p a P k (bitlen k - 1) P := by
  simp [scalarMultiply, hk]

/-- `scalarMultiply` answers the multiple of double-and-add, and nothing where there is none (rule R181). -/
theorem scalarMultiply_eq_ok (hp : 1 < p) (hk : k ≠ 0) :
    scalarMultiply p a P k = .ok r ↔ MultipleOf p a P k r := by
  have hlead := div_two_pow_bitlen hk
  rw [scalarMultiply_natCast hk, multipleOf_iff_smulLoop hp (i := bitlen k - 1) (by omega), hlead]
  simp [multipleOf_one_iff]

/-- Where double-and-add has no result, the error is NotInvertible (rule R181). -/
theorem scalarMultiply_of_not_multipleOf (hp : 1 < p) (hk : k ≠ 0) (h : ∀ r, ¬ MultipleOf p a P k r) :
    scalarMultiply p a P k = .error .notInvertible := by
  cases hm : scalarMultiply p a P k with
  | ok r => exact absurd ((scalarMultiply_eq_ok hp hk).1 hm) (h r)
  | error e => rw [smulLoop_error hp ((scalarMultiply_natCast hk).symm.trans hm)]

end Loop

section Command

variable {s : State} {neg : Bool} {rd rs1 : PReg} {rs2 : FReg}

/-- SMUL as an equation (rule R181). -/
theorem exec_smul (neg : Bool) (rd rs1 : PReg) (rs2 : FReg) (s : State) :
    exec (.smul neg rd rs1 rs2) s = pointCommand s rd
      (scalarMultiply (modulus s) (coeffA s) (pointOperand s rs1) (signed neg (fieldOperand s rs2))) := rfl

/-- SMUL by 0 writes the identity, for either sign (rule R181). -/
theorem exec_smul_zero (hl : ¬ Locked s rd) (hp : 3 < s.cp.toNat) (hk : fieldOperand s rs2 = 0) :
    exec (.smul neg rd rs1 rs2) s = .next (pointDone s rd .identity) := by
  have hzero : signed neg 0 = 0 := by cases neg <;> rfl
  rw [exec_smul, hk, hzero]
  exact pointCommand_pointDone hl hp _

/-- SMUL by a negative scalar completes with code 6 (rule R185). -/
theorem exec_smul_negative (hl : ¬ Locked s rd) (hp : 3 < s.cp.toNat) (hk : fieldOperand s rs2 ≠ 0) :
    exec (.smul true rd rs1 rs2) s = .next (errorDone s 6) := by
  have hneg : signed true (fieldOperand s rs2) < 0 := by
    rw [signed, if_pos rfl]
    omega
  rw [exec_smul, scalarMultiply, if_pos hneg]
  exact pointCommand_error (lockedDest_eq_false hl) hp _

/-- SMUL writes the multiple that double-and-add gives (rule R181). -/
theorem exec_smul_of_multipleOf (hl : ¬ Locked s rd) (hp : 3 < s.cp.toNat) {r : Point}
    (h : MultipleOf s.cp.toNat s.ca.toNat (pointOperand s rs1) (fieldOperand s rs2) r) :
    exec (.smul false rd rs1 rs2) s = .next (pointDone s rd r) := by
  have hmul : scalarMultiply (modulus s) (coeffA s) (pointOperand s rs1) (fieldOperand s rs2) = .ok r :=
    (scalarMultiply_eq_ok (p := s.cp.toNat) (by omega) (pos_of_multipleOf h).ne').2 h
  exact (congrArg (pointCommand s rd) hmul).trans (pointCommand_pointDone hl hp r)

/-- SMUL completes with code 3 when double-and-add has no result (rule R181). -/
theorem exec_smul_of_not_multipleOf (hl : ¬ Locked s rd) (hp : 3 < s.cp.toNat) (hk : fieldOperand s rs2 ≠ 0)
    (h : ∀ r, ¬ MultipleOf s.cp.toNat s.ca.toNat (pointOperand s rs1) (fieldOperand s rs2) r) :
    exec (.smul false rd rs1 rs2) s = .next (errorDone s 3) := by
  have hmul : scalarMultiply (modulus s) (coeffA s) (pointOperand s rs1) (fieldOperand s rs2) = .error .notInvertible :=
    scalarMultiply_of_not_multipleOf (p := s.cp.toNat) (by omega) hk h
  exact (congrArg (pointCommand s rd) hmul).trans (pointCommand_error (lockedDest_eq_false hl) hp _)

end Command

/-- Settles O9: the loop answers exactly the multiples of double-and-add, by its invariant that ACC is the multiple for
the bits of k that are consumed. -/
theorem smulComputesDoubleAndAdd : Obligations.SmulComputesDoubleAndAdd := by
  intro neg rd rs1 rs2 s
  refine ⟨exec_smul_zero, ?_, ?_, ?_, fun hl hp => pointCommand_small (lockedDest_eq_false hl) hp _,
    fun hl => pointCommand_locked (lockedDest_iff_locked.2 hl) _, encodedAs_smul neg rd rs1 rs2⟩
  · rintro hl hp rfl - r h
    exact exec_smul_of_multipleOf hl hp h
  · rintro hl hp rfl
    exact exec_smul_of_not_multipleOf hl hp
  · rintro hl hp rfl
    exact exec_smul_negative hl hp

/-- Doubling a point with y = 0 fails: the tangent's divisor is 0 (rule R164). -/
theorem not_addsTo_double_torsion {p a x : Nat} (hp : 1 < p) (d : Point) :
    ¬ AddsTo p a (.affine x 0) (.affine x 0) d := by
  have hgcd : Nat.gcd (2 * 0 % p) p ≠ 1 := by simpa using hp.ne'
  have herr : pointAdd p a (.affine x 0) (.affine x 0) = .error .notInvertible :=
    (pointAdd_eq_error hp).2 ⟨rfl, .inl ⟨rfl, rfl, hgcd⟩⟩
  exact fun h => nomatch herr.symm.trans ((pointAdd_eq_ok hp).2 h)

/-- Settles O37: double-and-add gives the identity for the identity and P for 1, and past 1 it starts by doubling P,
which fails at y = 0. -/
theorem smulSpecialOperands : Obligations.SmulSpecialOperands := by
  intro rd rs1 rs2 s hl hp hk
  refine ⟨fun h => exec_smul_of_multipleOf hl hp ?_, fun h => exec_smul_of_multipleOf hl hp ?_,
    fun x h h2 => exec_smul_of_not_multipleOf hl hp hk fun r hr => ?_⟩
  · rw [h]
    exact multipleOf_identity _ _ hk
  · rw [h]
    exact .one
  · rw [h] at hr
    obtain h1 | ⟨d, hd⟩ := exists_double_of_multipleOf hr
    · omega
    · exact not_addsTo_double_torsion (by omega) d hd

end Sys2Proof.Machine
end

section
/-! SUPPORT. The point decompressor: the curve test on residues, the candidate root and its parity step (rules R201 to
R210); PDEC as a command. -/

namespace Sys2Proof

open Sys2Proof.Spec

/-- The one word of PDEC (rules R91, R92, R201). -/
theorem encodedAs_pdec (tag : BitVec 8) (rd : PReg) (rs1 rs2 : FReg) :
    EncodedAs (.pdec tag rd rs1 rs2) (commandWord 0x12 rd rs1 rs2 tag.toNat 0) := by
  have hw := encodedAs_commandWord (.pdec tag rd rs1 rs2)
  simp only [encodeFields, plainFields, toNat_ofNat_preg, toNat_ofNat_freg] at hw
  exact hw

end Sys2Proof

namespace Sys2Proof.Machine

open Sys2Proof.Spec

/-- The candidate root y0 = r^((p+1)/4) of the right side r of the curve equation at x (rule R204). -/
def candidateRoot (p a b x : Nat) : Nat := normalize (curveRhs a b x) p ^ ((p + 1) / 4) % p

/-- The parity step: of the two roots y0 and p - y0, the one with the tag's parity (rule R206). -/
def parityRoot (p tag y0 : Nat) : Nat := if y0 % 2 ≠ tag % 2 then normalize ((p : Int) - y0) p else y0

section Parity

variable {p tag y0 : Nat}

/-- A candidate with the tag's parity is kept (rule R206). -/
theorem parityRoot_of_parity_eq (h : y0 % 2 = tag % 2) : parityRoot p tag y0 = y0 := if_neg (not_not.2 h)

/-- A candidate with the other parity is negated (rule R206). -/
theorem parityRoot_of_parity_ne (h : y0 % 2 ≠ tag % 2) (hle : y0 ≤ p) : parityRoot p tag y0 = (p - y0) % p := by
  rw [parityRoot, if_pos h, ← Nat.cast_sub hle, normalize_natCast]

/-- For odd p the parity step finds a root from itself or from its opposite (rule R206). -/
theorem parityRoot_eq {y : Nat} (hodd : p % 2 = 1) (hy : y < p) (h : y0 = y ∨ y0 + y = p)
    (htag : tag % 2 = y % 2) : parityRoot p tag y0 = y := by
  rcases h with rfl | hsum
  · exact parityRoot_of_parity_eq htag.symm
  · rw [parityRoot_of_parity_ne (by omega) (by omega), ← hsum, Nat.add_sub_cancel_left, hsum, Nat.mod_eq_of_lt hy]

end Parity

section Curve

variable {p a b x y y' : Nat}

/-- The curve equation in Z/p (rule R203). -/
theorem onCurve_iff_residue : OnCurve p a b x y ↔ (y : ZMod p) ^ 2 = (curveRhs a b x : Int) := by
  have hdef : OnCurve p a b x y ↔ ((y : Int) ^ 2 - curveRhs a b x) % p = 0 := Iff.rfl
  rw [hdef, ← Int.dvd_iff_emod_eq_zero, ← ZMod.intCast_zmod_eq_zero_iff_dvd, Int.cast_sub, Int.cast_pow,
    Int.cast_natCast, sub_eq_zero]

/-- `normalize` answers a number with the residue of its argument (rule R122). -/
theorem natCast_normalize (hp : 0 < p) (v : Int) : (normalize v p : ZMod p) = v := natCast_toNat_emod hp v

/-- The root check `y0 * y0 mod p = r` is the curve equation (rules R203, R205). -/
theorem mul_self_mod_eq_iff_onCurve (hp : 0 < p) :
    y * y % p = normalize (curveRhs a b x) p ↔ OnCurve p a b x y := by
  rw [← normalize_natCast, normalize_eq_iff hp, ← ZMod.intCast_eq_intCast_iff, Int.cast_natCast, Nat.cast_mul, ← sq,
    onCurve_iff_residue]

/-- The negated root has the same square, so the parity step stays on the curve (rule R206). -/
theorem onCurve_parityRoot (hp : 0 < p) (tag : Nat) (h : OnCurve p a b x y) : OnCurve p a b x (parityRoot p tag y) := by
  unfold parityRoot
  split
  · have hneg : (normalize ((p : Int) - y) p : ZMod p) = -y := by simp [natCast_normalize hp]
    rw [onCurve_iff_residue, hneg, neg_sq]
    exact onCurve_iff_residue.1 h
  · exact h

/-- Modulo a prime the two roots of one right side are equal or opposite (rule R206). -/
theorem eq_or_add_eq_of_onCurve (hprime : p.Prime) (hy : y < p) (hy' : y' < p) (h : OnCurve p a b x y)
    (h' : OnCurve p a b x y') : y' = y ∨ y' + y = p := by
  have : Fact p.Prime := ⟨hprime⟩
  have hsq : (y' : ZMod p) ^ 2 = (y : ZMod p) ^ 2 := (onCurve_iff_residue.1 h').trans (onCurve_iff_residue.1 h).symm
  rcases sq_eq_sq_iff_eq_or_eq_neg.1 hsq with heq | hneg
  · rw [ZMod.natCast_eq_natCast_iff', Nat.mod_eq_of_lt hy, Nat.mod_eq_of_lt hy'] at heq
    exact .inl heq
  · rw [eq_neg_iff_add_eq_zero, ← Nat.cast_add, ZMod.natCast_eq_zero_iff] at hneg
    by_cases hzero : y' + y = 0
    · exact .inl (by omega)
    · exact .inr (Nat.eq_of_dvd_of_lt_two_mul hzero hneg (by omega))

/-- For prime p = 3 (mod 4) the candidate root is a root when there is one: its square is `(y^2)^((p+1)/2) = y^p * y`,
and `y^p = y` by Fermat (rule R204). -/
theorem onCurve_candidateRoot (hprime : p.Prime) (hmod : p % 4 = 3) (h : OnCurve p a b x y) :
    OnCurve p a b x (candidateRoot p a b x) := by
  have : Fact p.Prime := ⟨hprime⟩
  have hexp : 2 * ((p + 1) / 4 * 2) = p + 1 := by omega
  rw [onCurve_iff_residue] at h ⊢
  calc (candidateRoot p a b x : ZMod p) ^ 2 = (((y : ZMod p) ^ 2) ^ ((p + 1) / 4)) ^ 2 := by
        rw [candidateRoot, ZMod.natCast_mod, Nat.cast_pow, natCast_normalize hprime.pos, h]
    _ = (y : ZMod p) ^ p * y := by rw [← pow_mul, ← pow_mul, hexp, pow_succ]
    _ = (curveRhs a b x : Int) := by rw [ZMod.pow_card, ← sq, h]

end Curve

section Decode

variable {p a b x y tag : Nat} {strict : Bool}

/-- Tag 0x04 answers the numbers as given when STRICT asks for no test or they pass it (rules R202, R203). -/
theorem decodePoint_uncompressed (hp : 0 < p) (h : strict = false ∨ OnCurve p a b x y) :
    decodePoint p a b strict 0x04 x y = .ok (.affine x y) := by
  rw [decodePoint, if_pos rfl, decodeUncompressed, if_neg]
  rcases h with rfl | hc
  · simp
  · have hzero : normalize ((y : Int) ^ 2 - curveRhs a b x) p = 0 := (normalize_eq_zero_iff hp).2 hc
    simp [hzero]

/-- Tag 0x04 under STRICT rejects a pair off the curve (rule R203). -/
theorem decodePoint_uncompressed_off_curve (hp : 0 < p) (h : ¬ OnCurve p a b x y) :
    decodePoint p a b true 0x04 x y = .error .pointNotOnCurve := by
  have hne : normalize ((y : Int) ^ 2 - curveRhs a b x) p ≠ 0 := mt (normalize_eq_zero_iff hp).1 h
  rw [decodePoint, if_pos rfl, decodeUncompressed]
  exact if_pos (decide_eq_true hne)

/-- A compressed tag is decoded by its candidate root (rules R201, R204). -/
theorem decodePoint_compressed_tag (h : tag = 0x02 ∨ tag = 0x03) :
    decodePoint p a b strict tag x y = decodeCompressed p a b strict tag x := by
  rw [decodePoint, if_neg (by omega), if_pos h]

/-- A compressed tag needs p = 3 (mod 4) (rule R204). -/
theorem decodePoint_unsupported (h : tag = 0x02 ∨ tag = 0x03) (hmod : p % 4 ≠ 3) :
    decodePoint p a b strict tag x y = .error .unsupportedModulus := by
  rw [decodePoint_compressed_tag h, decodeCompressed, if_pos hmod]

/-- An unknown tag is malformed (rules R201, R207). -/
theorem decodePoint_unknown_tag (h4 : tag ≠ 0x04) (h : ¬ (tag = 0x02 ∨ tag = 0x03)) :
    decodePoint p a b strict tag x y = .error .malformedPublicKeyEncoding := by
  rw [decodePoint, if_neg h4, if_neg h]

/-- The model's root check is the curve equation at the candidate root (rule R205). -/
theorem rootCheck_iff_onCurve (hp : 0 < p) (y : Nat) :
    normalize ((y : Int) * y) p = normalize (curveRhs a b x) p ↔ OnCurve p a b x y := by
  rw [← mul_self_mod_eq_iff_onCurve hp, ← Nat.cast_mul, normalize_natCast]

/-- A compressed tag answers by the root check and the parity step of the candidate root (rules R204 to R206). -/
theorem decodePoint_eq_rootCheck (hp : 1 < p) (htag : tag = 0x02 ∨ tag = 0x03) (hmod : p % 4 = 3) :
    decodePoint p a b strict tag x y =
      if strict && decide (normalize ((candidateRoot p a b x : Int) * candidateRoot p a b x) p ≠
        normalize (curveRhs a b x) p) then .error .pointNotOnCurve
      else .ok (.affine x (parityRoot p tag (candidateRoot p a b x))) := by
  have hroot : modPow (normalize (curveRhs a b x) p) ((p + 1) / 4) p = candidateRoot p a b x := modPow_eq _ _ hp
  rw [decodePoint_compressed_tag htag, decodeCompressed, if_neg (not_not.2 hmod)]
  simp only [hroot, parityRoot]

/-- A compressed tag answers the candidate root after the parity step, when STRICT asks for no check or the candidate
passes it (rules R204 to R206). -/
theorem decodePoint_compressed (hp : 1 < p) (htag : tag = 0x02 ∨ tag = 0x03) (hmod : p % 4 = 3)
    (h : strict = false ∨ OnCurve p a b x (candidateRoot p a b x)) :
    decodePoint p a b strict tag x y = .ok (.affine x (parityRoot p tag (candidateRoot p a b x))) := by
  rw [decodePoint_eq_rootCheck hp htag hmod]
  refine if_neg ?_
  rcases h with rfl | hc
  · simp
  · simp [(rootCheck_iff_onCurve (by omega) _).2 hc]

/-- A compressed tag under STRICT rejects a candidate that is no root (rule R205). -/
theorem decodePoint_compressed_no_root (hp : 1 < p) (htag : tag = 0x02 ∨ tag = 0x03) (hmod : p % 4 = 3)
    (h : ¬ OnCurve p a b x (candidateRoot p a b x)) :
    decodePoint p a b true tag x y = .error .pointNotOnCurve := by
  rw [decodePoint_eq_rootCheck hp htag hmod]
  exact if_pos (decide_eq_true (mt (rootCheck_iff_onCurve (by omega) _).1 h))

/-- Under STRICT the decompressor answers points of the curve only (rules R203, R205). -/
theorem onCurve_of_decodePoint {x' y' : Nat} (hp : 1 < p)
    (h : decodePoint p a b true tag x y = .ok (.affine x' y')) : OnCurve p a b x' y' := by
  by_cases h4 : tag = 0x04
  · subst h4
    by_cases hc : OnCurve p a b x y
    · cases (decodePoint_uncompressed (by omega) (.inr hc)).symm.trans h
      exact hc
    · exact nomatch (decodePoint_uncompressed_off_curve (by omega) hc).symm.trans h
  · by_cases htag : tag = 0x02 ∨ tag = 0x03
    · by_cases hmod : p % 4 = 3
      · by_cases hc : OnCurve p a b x (candidateRoot p a b x)
        · cases (decodePoint_compressed hp htag hmod (.inr hc)).symm.trans h
          exact onCurve_parityRoot (by omega) tag hc
        · exact nomatch (decodePoint_compressed_no_root hp htag hmod hc).symm.trans h
      · exact nomatch (decodePoint_unsupported htag hmod).symm.trans h
    · exact nomatch (decodePoint_unknown_tag h4 htag).symm.trans h

/-- Decoding inverts encoding: for a prime p = 3 (mod 4), x and the parity of y give the point back (rule R210). -/
theorem decodePoint_compressed_of_onCurve {z : Nat} (hprime : p.Prime) (hmod : p % 4 = 3)
    (htag : tag = 0x02 ∨ tag = 0x03) (hparity : tag % 2 = y % 2) (hy : y < p) (hc : OnCurve p a b x y) :
    decodePoint p a b strict tag x z = .ok (.affine x y) := by
  have hroot : OnCurve p a b x (candidateRoot p a b x) := onCurve_candidateRoot hprime hmod hc
  have hlt : candidateRoot p a b x < p := Nat.mod_lt _ hprime.pos
  rw [decodePoint_compressed hprime.one_lt htag hmod (.inr hroot),
    parityRoot_eq (by omega) hy (eq_or_add_eq_of_onCurve hprime hy hlt hc hroot) hparity]

end Decode

section Command

variable {s : State} {tag : BitVec 8} {rd : PReg} {rs1 rs2 : FReg}

/-- PDEC as an equation (rules R200, R201). -/
theorem exec_pdec (tag : BitVec 8) (rd : PReg) (rs1 rs2 : FReg) (s : State) :
    exec (.pdec tag rd rs1 rs2) s = pointCommand s rd (decodePoint (modulus s) (coeffA s) (coeffB s) s.ctrlStrict tag.toNat
      (fieldOperand s rs1) (fieldOperand s rs2)) := rfl

/-- PDEC writes the point that the decompressor answers (rules R200, R259). -/
theorem exec_pdec_of_ok (hl : ¬ Locked s rd) (hp : 3 < s.cp.toNat) {r : Point}
    (h : decodePoint s.cp.toNat s.ca.toNat s.cb.toNat s.ctrlStrict tag.toNat (fieldOperand s rs1) (fieldOperand s rs2) =
      .ok r) : exec (.pdec tag rd rs1 rs2) s = .next (pointDone s rd r) :=
  (congrArg (pointCommand s rd) h).trans (pointCommand_pointDone hl hp r)

/-- PDEC completes with the code of the error that the decompressor raises (rules R200, R259). -/
theorem exec_pdec_of_error (hl : ¬ Locked s rd) (hp : 3 < s.cp.toNat) {e : ErrKind}
    (h : decodePoint s.cp.toNat s.ca.toNat s.cb.toNat s.ctrlStrict tag.toNat (fieldOperand s rs1) (fieldOperand s rs2) =
      .error e) : exec (.pdec tag rd rs1 rs2) s = .next (errorDone s e.code) :=
  (congrArg (pointCommand s rd) h).trans (pointCommand_error (lockedDest_eq_false hl) hp e)

/-- The compressed tags as numbers. -/
theorem toNat_compressed_tag (h : tag = 0x02#8 ∨ tag = 0x03#8) : tag.toNat = 0x02 ∨ tag.toNat = 0x03 :=
  h.imp (congrArg BitVec.toNat) (congrArg BitVec.toNat)

end Command

/-- A number that is no larger than a register's content fits a slot (rule R62). -/
theorem toNat_ofNat_of_le {v : Nat} {w : Word} (h : v ≤ w.toNat) : (BitVec.ofNat 1024 v).toNat = v := by
  rw [BitVec.toNat_ofNat, Nat.mod_eq_of_lt (h.trans_lt w.isLt)]

/-- Settles O10: the test on residues is the curve equation. -/
theorem pdecUncompressedTakesTheNumbersAsGiven : Obligations.PdecUncompressedTakesTheNumbersAsGiven := by
  intro rd rs1 rs2 s hl hp
  refine ⟨fun h => exec_pdec_of_ok hl hp (decodePoint_uncompressed (by omega) h), fun hs h => ?_⟩
  refine exec_pdec_of_error hl hp (e := .pointNotOnCurve) ?_
  rw [hs]
  exact decodePoint_uncompressed_off_curve (by omega) h

/-- Settles O12: the common checks come first, then the tag, then the modulus. -/
theorem pdecReportsTheFirstError : Obligations.PdecReportsTheFirstError := by
  intro tag rd rs1 rs2 s
  refine ⟨fun hl => pointCommand_locked (lockedDest_iff_locked.2 hl) _,
    fun hl hp => pointCommand_small (lockedDest_eq_false hl) hp _, fun hl hp h2 h3 h4 => ?_, fun hl hp htag hmod => ?_,
    encodedAs_pdec tag rd rs1 rs2⟩
  · have hne : ∀ {t : BitVec 8}, tag ≠ t → tag.toNat ≠ t.toNat := mt BitVec.eq_of_toNat_eq
    exact exec_pdec_of_error hl hp (decodePoint_unknown_tag (hne h4) (not_or.2 ⟨hne h2, hne h3⟩))
  · exact exec_pdec_of_error hl hp (decodePoint_unsupported (toNat_compressed_tag htag) hmod)

/-- Settles O11: the given r and y0 are the right side and the candidate root, and the root check is the curve equation. -/
theorem pdecCompressedRecoversTheRoot : Obligations.PdecCompressedRecoversTheRoot := by
  intro tag rd rs1 rs2 s r y0 hl hp htag hmod hr hy0
  have hpos : 0 < s.cp.toNat := by omega
  replace htag := toNat_compressed_tag htag
  obtain rfl : r = normalize (curveRhs s.ca.toNat s.cb.toNat (fieldOperand s rs1)) s.cp.toNat :=
    Int.natCast_inj.1 (hr.trans (normalize_cast _ hpos).symm)
  obtain rfl : y0 = candidateRoot s.cp.toNat s.ca.toNat s.cb.toNat (fieldOperand s rs1) := hy0
  rw [ne_eq (_ % _) (normalize _ _), mul_self_mod_eq_iff_onCurve hpos]
  refine ⟨fun h hpar => ?_, fun h hpar => ?_, fun hs h => ?_⟩
  · rw [exec_pdec_of_ok hl hp (decodePoint_compressed (by omega) htag hmod h), parityRoot_of_parity_eq hpar]
  · rw [exec_pdec_of_ok hl hp (decodePoint_compressed (by omega) htag hmod h),
      parityRoot_of_parity_ne hpar (Nat.mod_lt _ hpos).le]
  · refine exec_pdec_of_error hl hp (e := .pointNotOnCurve) ?_
    rw [hs]
    exact decodePoint_compressed_no_root (by omega) htag hmod h

/-- Settles O39: a root that exists is found from its parity, and tag 0x04 takes the point as given. -/
theorem pdecInvertsCompress : Obligations.PdecInvertsCompress := by
  intro rd rs1 rs2 s tag y hl hp _ hy hc
  refine ⟨fun hprime hmod htag => exec_pdec_of_ok hl hp ?_, fun hrs2 => exec_pdec_of_ok hl hp ?_⟩
  · have htags : (tag = 0x02#8 ∨ tag = 0x03#8) ∧ tag.toNat % 2 = y % 2 := by
      split at htag
      next heven => exact ⟨.inl htag, by rw [htag, heven]; rfl⟩
      next hodd => exact ⟨.inr htag, by rw [htag, Nat.mod_two_ne_zero.1 hodd]; rfl⟩
    exact decodePoint_compressed_of_onCurve hprime hmod (toNat_compressed_tag htags.1) htags.2 hy hc
  · subst hrs2
    exact decodePoint_uncompressed (by omega) (.inr hc)

/-- Settles O40: `ERR = 0` leaves the point that the decompressor answered, and its coordinates fit their slots. -/
theorem strictPdecWritesPointsOnTheCurve : Obligations.StrictPdecWritesPointsOnTheCurve := by
  intro tag rd rs1 rs2 s t hs h herr
  rw [exec_pdec, hs] at h
  obtain ⟨hp, -, r, hr, hn⟩ | ⟨e, he⟩ := pointCommand_cases s rd
    (decodePoint (modulus s) (coeffA s) (coeffB s) true tag.toNat (fieldOperand s rs1) (fieldOperand s rs2))
  · obtain ⟨y, rfl, hy⟩ := decodePoint_cases (by omega) hr
    have hc := onCurve_of_decodePoint (by omega) hr
    cases h.symm.trans hn
    have hreg : ((s.setPoint rd (Point.affine (fieldOperand s rs1) y).toReg).finish 0).pt.get rd =
        (Point.affine (fieldOperand s rs1) y).toReg := pointReg_setPoint_self s rd _
    have hx : (BitVec.ofNat 1024 (fieldOperand s rs1)).toNat = fieldOperand s rs1 :=
      toNat_ofNat_of_le (w := s.fieldReg rs1) le_rfl
    have hyfit : (BitVec.ofNat 1024 y).toNat = y := by
      rcases hy with rfl | hlt
      · exact toNat_ofNat_of_le (w := s.fieldReg rs2) le_rfl
      · exact toNat_ofNat_of_le (w := s.cp) hlt.le
    rw [hreg, Point.toReg, hx, hyfit]
    exact ⟨rfl, hc⟩
  · cases h.symm.trans he
    exact absurd herr (takeError_statusErr_ne_zero e s)

end Sys2Proof.Machine
end

section
/-! SUPPORT. The host's hexadecimal codec: digits are read back as they were written (rules R222, R223). -/

namespace Sys2Proof.Machine

/-- Every hexadecimal digit is read as the value it was written for. -/
theorem hexDigit_hexChar {d : Nat} (h : d < 16) : hexDigit (hexChar d) = some d := by
  decide +revert

@[simp] theorem length_hexDigits (n v : Nat) : (hexDigits n v).length = n := by
  induction n generalizing v with
  | zero => rfl
  | succ n ih => rw [hexDigits, List.length_append, ih, List.length_singleton]

/-- The digits of a text in two parts are read in order. -/
theorem hexValue_append (acc : Nat) (xs ys : List Char) :
    hexValue acc (xs ++ ys) = (hexValue acc xs).bind fun v => hexValue v ys := by
  induction xs generalizing acc with
  | nil => rfl
  | cons c cs ih =>
    rw [List.cons_append, hexValue, hexValue]
    cases hexDigit c with
    | none => rfl
    | some d => exact ih _

/-- The digit written for the lowest four bits is read last, onto the digits before it. -/
theorem hexValue_hexChar (acc v : Nat) : hexValue acc [hexChar (v % 16)] = some (16 * acc + v % 16) := by
  rw [hexValue, hexDigit_hexChar (Nat.mod_lt v (by decide))]
  rfl

/-- `n` digits are read back as the number, when it has no more than `n`. -/
theorem hexValue_hexDigits {n v : Nat} (h : v < 16 ^ n) : hexValue 0 (hexDigits n v) = some v := by
  induction n generalizing v with
  | zero => rw [Nat.lt_one_iff.1 h]; rfl
  | succ n ih =>
    have hv : v / 16 < 16 ^ n := Nat.div_lt_of_lt_mul (by rwa [← Nat.pow_succ'])
    rw [hexDigits, hexValue_append, ih hv, Option.bind_some, hexValue_hexChar, Nat.div_add_mod]

theorem hexLength_pos (v : Nat) : 0 < hexLength v := by
  have := bitlen_pos v
  unfold hexLength
  omega

/-- `hexLength` digits are enough, for four bits each cover `bitlen`. -/
theorem lt_sixteen_pow_hexLength (v : Nat) : v < 16 ^ hexLength v := by
  have hbits : bitlen v ≤ 4 * hexLength v := by unfold hexLength; omega
  calc v < 2 ^ bitlen v := lt_two_pow_bitlen v
    _ ≤ 2 ^ (4 * hexLength v) := Nat.pow_le_pow_right (by decide) hbits
    _ = 16 ^ hexLength v := Nat.pow_mul 2 4 _

/-- A text of at least one digit decodes to the number it spells (rule R222). -/
theorem decodeHex_eq_ok {s : List Char} {v : Nat} (hs : s ≠ []) (hv : hexValue 0 s = some v) : decodeHex s = .ok v := by
  rw [decodeHex, if_neg (by simpa using hs), hv]

/-- Settles O57: the width is the larger of the one asked for and the one needed, so every digit is written. -/
theorem hexCodecRoundTrip : Obligations.HexCodecRoundTrip := by
  intro v w
  have hlen : (encodeHex v w).length = max w (hexLength v) := length_hexDigits _ v
  have hne : encodeHex v w ≠ [] :=
    List.ne_nil_of_length_pos (hlen ▸ lt_max_of_lt_right (hexLength_pos v))
  have hfit : v < 16 ^ max w (hexLength v) :=
    (lt_sixteen_pow_hexLength v).trans_le (Nat.pow_le_pow_right (by decide) (le_max_right w _))
  exact ⟨decodeHex_eq_ok hne (hexValue_hexDigits hfit), hlen ▸ le_max_left w _⟩

end Sys2Proof.Machine
end

section
/-! SUPPORT. What the host reads in STATUS, and RUN as one acceptance and one completion (rules R44, R221, R306). -/

namespace Sys2Proof.Machine

theorem readStatus_eq (s : State) : readStatus s = statusWord s := rfl

/-- `STATUS.BUSY` as read (rules R29, R44). -/
theorem readStatus_busy (s : State) : (readStatus s).getLsbD 0 = s.busy := by
  have hbit : (readStatus s).getLsbD 0 = (BitVec.ofBool s.busy).getLsbD 0 := BitVec.getLsbD_append
  rw [hbit, BitVec.getLsbD_ofBool]
  rfl

/-- `STATUS.DONE` as read (rule R44). -/
theorem readStatus_done (s : State) : (readStatus s).getLsbD 1 = s.statusDone := by
  have hbit : (readStatus s).getLsbD 1 = (BitVec.ofBool s.statusDone).getLsbD 0 :=
    BitVec.getLsbD_append.trans BitVec.getLsbD_append
  rw [hbit, BitVec.getLsbD_ofBool]
  rfl

/-- `STATUS.ERR` as read (rules R44, R221). -/
theorem readErr_eq (s : State) : readErr s = s.statusErr.toNat := by
  have herr := s.statusErr.isLt
  have hbusy := s.busy.toNat_lt
  have hdone := s.statusDone.toNat_lt
  rw [readErr, readStatus_eq, BitVec.extractLsb'_toNat, Nat.shiftRight_eq_div_pow, statusWord_toNat]
  omega

/-- While a command runs and `DONE = 0`, WAIT ends at the completion step with its code (rule R306). -/
theorem runWait_of_running {s t : State} (hb : s.seq = .busy) (hd : s.statusDone = false)
    (h : completionStep s = .next t) : runWait s = .done t.statusErr.toNat t := by
  have hbusy : s.busy = true := decide_eq_true hb
  rw [runWait, readStatus_done, hd, readStatus_busy, hbusy, h, ← readErr_eq]
  rfl

/-- In IDLE, RUN accepts the word and waits (rule R221). -/
theorem runCommand_of_idle {s : State} (hi : s.seq = .idle) (c : Word32) :
    runCommand c s = (runWait (acceptCommand s c)).andThen fun err t =>
      if err = 0 then .done () t else .failed (.code err) t := by
  have hidle : s.busy = false := by simp [State.busy, hi]
  have haccept : winWrite s ControlReg.cmd.offset c = acceptCommand s c := (winWrite_cmd s c).trans (gated_idle hi _)
  rw [runCommand, readStatus_busy, hidle, perform_wrActions, haccept]
  rfl

/-- RUN in IDLE ends as the accepted word completes: done when the code is 0, failed with it otherwise (rule R221). -/
theorem runCommand_of_completes {s t : State} {c : Word32} (hi : s.seq = .idle)
    (h : completionStep (acceptCommand s c) = .next t) :
    runCommand c s = if t.statusErr.toNat = 0 then .done () t else .failed (.code t.statusErr.toNat) t := by
  rw [runCommand_of_idle hi, runWait_of_running (acceptCommand_seq s c) (acceptCommand_statusDone s c) h]
  rfl

/-- The accepted encoding of a command completes as the command (rule R101). -/
theorem completionStep_acceptCommand_encode (i : Instr) (s : State) :
    completionStep (acceptCommand s (encode i)) = exec i (acceptCommand s (encode i)) := by
  rw [completionStep, acceptCommand_cmd, decodeOfEncodeIsTheInstruction i]

/-- Settles O59: the state given is the accepted one, whose completion step is the command itself. -/
theorem runExecutesTheCommand : Obligations.RunExecutesTheCommand := by
  rintro i s u t hi rfl h
  have hrun := runCommand_of_completes hi ((completionStep_acceptCommand_encode i s).trans h)
  exact ⟨fun h0 => hrun.trans (if_pos (by rw [h0]; rfl)),
    fun h0 => hrun.trans (if_neg fun hc => h0 (BitVec.eq_of_toNat_eq hc))⟩

end Sys2Proof.Machine
end

section
/-! SUPPORT. How a command ends, with or without an error (rules R259, R263), and the interrupt output (rules R266, R267). -/

namespace Sys2Proof.Machine

variable {i : Instr} {s t : State}

namespace Completed

/-- The two ends of a command: a result with `ERR = 0` and `ERRLOG` kept, or an error taken (rule R259). -/
theorem result_or_error (h : Completed i s t) :
    (t.statusErr = 0 ∧ t.errlog = s.errlog) ∨ ∃ e, t = takeError e s := by
  rcases h with ⟨-, rd, v, -, -, rfl⟩ | ⟨-, rd, r, -, -, -, rfl⟩ | he
  · exact .inl ⟨rfl, rfl⟩
  · exact .inl ⟨rfl, rfl⟩
  · exact .inr he

/-- A completion with `ERR ≠ 0` is an error taken (rule R259). -/
theorem exists_takeError (h : Completed i s t) (herr : t.statusErr ≠ 0) : ∃ e, t = takeError e s :=
  h.result_or_error.resolve_left fun hr => herr hr.1

/-- A completion is in IDLE (rule R259). -/
theorem seq_eq (h : Completed i s t) : t.seq = .idle := by rw [h.frame]

/-- A completion has `DONE = 1` (rule R259). -/
theorem statusDone_eq (h : Completed i s t) : t.statusDone = true := by rw [h.frame]

/-- A completion with `ERR = 0` keeps `ERRLOG` (rule R259). -/
theorem errlog_eq (h : Completed i s t) (herr : t.statusErr = 0) : t.errlog = s.errlog := by
  rcases h.result_or_error with ⟨-, hlog⟩ | ⟨e, rfl⟩
  · exact hlog
  · exact absurd herr (takeError_statusErr_ne_zero e s)

end Completed

/-- Taking an error adds the bit of the code that it leaves in `STATUS.ERR` (rules R46, R259). -/
theorem takeError_errlog (e : ErrKind) (s : State) :
    (takeError e s).errlog = s.errlog ||| (1#32 <<< (takeError e s).statusErr.toNat) := by
  rw [takeError_statusErr]
  rfl

/-- Settles O27: every command completes, and only an error taken touches `ERRLOG`. -/
theorem everyCommandCompletes : Obligations.EveryCommandCompletes := by
  intro i s
  obtain ⟨t, ht, hc⟩ := exec_cases i s
  refine ⟨t, ht, hc.seq_eq, hc.statusDone_eq, hc.errlog_eq, fun herr => ?_⟩
  obtain ⟨e, rfl⟩ := hc.exists_takeError herr
  exact takeError_errlog e s

/-- Settles O28: with `ERR ≠ 0` the completion is `takeError`, which writes these four fields only. -/
theorem errorsArePrecise : Obligations.ErrorsArePrecise := by
  intro i s t h herr
  obtain ⟨e, rfl⟩ := (exec_completed h).exists_takeError herr
  rfl

/-- When `irq` is 1 (rule R266). -/
theorem irq_eq_true_iff (s : State) :
    irq s = true ↔ (s.intenDone = true ∧ s.statusDone = true) ∨ (s.intenErr = true ∧ s.statusErr ≠ 0) := by
  simp [irq]

/-- With `DONE = 0` and `ERR = 0` there is nothing to signal (rules R266, R267). -/
theorem irq_of_status_clear (hdone : s.statusDone = false) (herr : s.statusErr = 0) : irq s = false := by
  simp [irq, hdone, herr]

/-- With both enables 0 nothing is signalled (rules R266, R267). -/
theorem irq_of_disabled (hdone : s.intenDone = false) (herr : s.intenErr = false) : irq s = false := by
  simp [irq, hdone, herr]

/-- Settles O55: the acknowledge, an accepted command and Reset clear STATUS, and the INTEN write clears the enables. -/
theorem irqFollowsStatusAndEnables : Obligations.IrqFollowsStatusAndEnables := by
  intro s
  refine ⟨irq_eq_true_iff s, fun v hack => ?acknowledge, fun v hdone herr => ?disable, fun hi c => ?accept,
    fun t ht => ?reset⟩
  case acknowledge =>
    rw [winWrite_status, writeStatus, if_pos hack]
    exact irq_of_status_clear (acknowledge_statusDone s) (acknowledge_statusErr s)
  case disable =>
    rw [winWrite_inten]
    exact irq_of_disabled hdone herr
  case accept =>
    rw [winWrite_cmd, gated_idle hi]
    exact irq_of_status_clear (acceptCommand_statusDone s c) (acceptCommand_statusErr s c)
  case reset =>
    cases ht
    exact irq_of_status_clear rfl rfl

end Sys2Proof.Machine
end

section
/-! SUPPORT. A running command comes to its end: every host action but Reset uses up one unit of the free latency, and
the completion step ends the command (rules R259, R306, log 1, log 9). -/

namespace Sys2Proof.Machine

open Sys2Proof.Spec

variable {s t : State}

@[simp] theorem writeStatus_wait (s : State) (v : Word32) : (writeStatus s v).wait = s.wait := by
  unfold writeStatus; split <;> rfl

/-- While BUSY no command is accepted, so a window write leaves the free latency alone (rule R69). -/
theorem winWrite_wait_of_busy (hb : s.seq = .busy) (off : BitVec 12) (v : Word32) :
    (winWrite s off v).wait = s.wait := by
  rcases winWrite_cases s off v with h | h | h | h | ⟨-, h⟩ | ⟨hi, -⟩
  case inr.inr.inr.inr.inr => rw [hb] at hi; cases hi
  all_goals simp [h]

/-- While BUSY no host action but Reset changes the free latency (rule R69). -/
theorem hostAction_wait_of_busy {a : HostAction} (hb : s.seq = .busy) (ha : a ≠ .reset)
    (ht : hostAction a s = .next t) : t.wait = s.wait := by
  rcases hostAction_cases ht with ⟨x, rfl⟩ | ⟨off, v, -, rfl⟩ | ⟨hr, -⟩
  · rfl
  · exact winWrite_wait_of_busy hb off v
  · exact absurd hr ha

/-- The completion step ends in IDLE with `DONE = 1`, whatever the word (rule R259). -/
theorem completionStep_ends (h : completionStep s = .next t) : t.seq = .idle ∧ t.statusDone = true := by
  rcases completionStep_cases s with ⟨i, -, he⟩ | ⟨-, he⟩ <;> rw [he] at h
  · exact ⟨(exec_completed h).seq_eq, (exec_completed h).statusDone_eq⟩
  · cases h
    exact ⟨rfl, rfl⟩

/-- A command is running, and each pending host action is one the block takes and no Reset (rules R66, R290). -/
structure RunsOn (s : State) : Prop where
  busy : s.seq = .busy
  host : ∀ a ∈ s.host, a.aligned = true ∧ a ≠ .reset

/-- Until the command is due, a step takes a host action: the command runs on, with less of its latency left (log 1). -/
theorem RunsOn.step (h : RunsOn s) (hn : ¬ CompletesNow s) :
    ∃ t, Machine.step s = .next t ∧ RunsOn t ∧ t.wait + 1 = s.wait := by
  have hwait : s.wait ≠ 0 := fun h0 => hn ⟨h.busy, .inl h0⟩
  obtain ⟨a, rest, hh⟩ := List.exists_cons_of_ne_nil fun h0 => hn ⟨h.busy, .inr h0⟩
  obtain ⟨halign, hreset⟩ := h.host a (by simp [hh])
  obtain ⟨t, ht⟩ := hostAction_next halign (deliver s rest)
  have hbusy : (deliver s rest).seq = .busy := h.busy
  obtain ⟨-, hrunning, -⟩ := hostAction_busy hbusy hreset ht
  have hrest : t.host = rest := hostAction_host ht
  have hleft : t.wait = s.wait - 1 := hostAction_wait_of_busy hbusy hreset ht
  exact ⟨t, ((stepTakesTheHostActionOtherwise s hn).2 a rest hh).trans ht,
    ⟨hrunning, fun b hb => h.host b (by simp [hh, ← hrest, hb])⟩, by omega⟩

/-- A run begins with its first step. -/
theorem run_succ_of_step {M : Host.Core} {s t : M.State} (h : M.step s = .next t) (k : Nat) :
    M.run (k + 1) s = M.run k t := by
  rw [Host.Core.run, h]

/-- A command that is due completes in one step (rules R101, R259). -/
theorem run_one_of_completesNow (h : CompletesNow s) :
    ∃ t, Host.Core.run Sys2Proof.core 1 s = .next t ∧ t.seq = .idle ∧ t.statusDone = true := by
  obtain ⟨t, ht⟩ := completionStep_next s
  exact ⟨t, run_succ_of_step (M := Sys2Proof.core) ((step_of_completesNow h).trans ht) 0, completionStep_ends ht⟩

/-- A running command completes before its latency and one step more are over: induction on the latency left. -/
theorem RunsOn.completes {n : Nat} (h : RunsOn s) (hw : s.wait = n) :
    ∃ k ≤ n + 1, ∃ t, Host.Core.run Sys2Proof.core k s = .next t ∧ t.seq = .idle ∧ t.statusDone = true := by
  induction n generalizing s with
  | zero => exact ⟨1, le_rfl, run_one_of_completesNow ⟨h.busy, .inl hw⟩⟩
  | succ n ih =>
    by_cases hc : CompletesNow s
    · exact ⟨1, by omega, run_one_of_completesNow hc⟩
    · obtain ⟨u, hu, hrun, hleft⟩ := h.step hc
      obtain ⟨k, hk, t, ht, hend⟩ := ih hrun (by omega)
      exact ⟨k + 1, by omega, t, (run_succ_of_step (M := Sys2Proof.core) hu k).trans ht, hend⟩

/-- Settles O21: each step before the completion uses up one unit of the latency. -/
theorem runningCommandCompletes : Obligations.RunningCommandCompletes :=
  fun _ hb hh => RunsOn.completes ⟨hb, hh⟩ rfl

end Sys2Proof.Machine
end
